-- ==== Sys2Proof/Word.lean ====
section
/-! DEFINITION. The two widths of the block: 8-bit registers, codes and bytes, and 16-bit views, `pc`, `sp` and
checksum accumulator (00_scope.md R5). All values are unsigned (R7). -/

namespace Sys2Proof

/-- An 8-bit value: a general register, a header byte, an opcode (00_scope.md R5, `XLEN8` = 8). -/
abbrev Byte := BitVec 8

/-- A 16-bit value: a paired view, `pc`, `sp`, the checksum accumulator (00_scope.md R5, `PAIRLEN` = 16). -/
abbrev Word16 := BitVec 16

end Sys2Proof
end

