-- ==== Sys2Proof/Config.lean ====
section
/-! DEFINITION. The parameters of the block (00_scope.md R5): the least image length, and the four parameters the
spec leaves OPEN (`MAX_LEN`, the three lookup tables, `TITLE_DECODE`). What is open is an opaque constant without a
body, wrapped so that the least content the spec gives it holds (92_eei_decisions.md D19, D21, D24). -/

namespace Sys2Proof

/-- The meaning of a licence code. `NoLicense` is the one name the spec gives (92_eei_decisions.md D24); any other
name a table may hold is `named`. -/
inductive Licensee where
  | noLicense
  | named (text : String)
  deriving DecidableEq, Repr

/-- The meaning of a destination code. `Japan` is the one name the spec gives (92_eei_decisions.md D24). -/
inductive Region where
  | japan
  | named (text : String)
  deriving DecidableEq, Repr

/-- The name of a cartridge type. The spec gives none: even the name of code 0x01 is open (42_cartridge_header.md R130). -/
abbrev CartTypeName := String

/-- `MIN_LEN` = 0x150: the least image length a load accepts (00_scope.md R5; log entry 6). -/
def Config.minLen : Nat := 0x150

/-- How far `MAX_LEN` lies above `MIN_LEN`: OPEN (92_eei_decisions.md D19; log entry 5). -/
opaque Config.maxLenExtra : Nat

/-- `MAX_LEN`: the greatest image length a load accepts, some number that is at least `MIN_LEN` (00_scope.md R5). -/
def Config.maxLen : Nat := Config.maxLenExtra + Config.minLen

/-- The name `CART_TYPE_TABLE` gives code 0x01: OPEN, but 0x01 is in its domain (42_cartridge_header.md R130). -/
opaque Config.cartType01 : CartTypeName

/-- `CART_TYPE_TABLE` at every code but 0x01: OPEN (42_cartridge_header.md R130; log entry 4). -/
opaque Config.cartTypeOpen : Byte → Option CartTypeName

/-- `CART_TYPE_TABLE`: a partial map whose domain holds at least 0x01 (00_scope.md R5, 92_eei_decisions.md D24). -/
def Config.cartTypeTable (code : Byte) : Option CartTypeName :=
  if code = 0x01 then some Config.cartType01 else Config.cartTypeOpen code

/-- The code that means "no licence": OPEN (42_cartridge_header.md R131). -/
opaque Config.noLicenseCode : Byte

/-- `LIC_TABLE` at every other code: OPEN (42_cartridge_header.md R131; log entry 4). -/
opaque Config.licOpen : Byte → Option Licensee

/-- `LIC_TABLE`: a partial map in which some code means "no licence" (00_scope.md R5, 92_eei_decisions.md D24). -/
def Config.licTable (code : Byte) : Option Licensee :=
  if code = Config.noLicenseCode then some .noLicense else Config.licOpen code

/-- The code that means "Japan": OPEN (42_cartridge_header.md R132). -/
opaque Config.japanCode : Byte

/-- `DEST_TABLE` at every other code: OPEN (42_cartridge_header.md R132; log entry 4). -/
opaque Config.destOpen : Byte → Option Region

/-- `DEST_TABLE`: a partial map in which some code means "Japan" (00_scope.md R5, 92_eei_decisions.md D24). -/
def Config.destTable (code : Byte) : Option Region :=
  if code = Config.japanCode then some .japan else Config.destOpen code

/-- The text of a title byte outside 0x20 to 0x7E, given the whole trimmed title and the byte's place in it: OPEN
(42_cartridge_header.md R125; log entry 7). -/
opaque Config.titleTextOpen : List Byte → Nat → List Char

end Sys2Proof
end

