-- ==== Sys2Proof/Syntax.lean ====
section
/-! DEFINITION. The syntax of what the block is given: the four typed instructions (30_encoding.md R61, R62), the
decoder's result, the register and view names, the flags record, the header fields, and the commands a host issues
at the block's boundary (00_scope.md R2, R6). -/

namespace Sys2Proof

/-- The eight 8-bit registers, in the order of the select codes (10_state.md R10, 40_register_file.md R80). -/
inductive Reg where
  | a | f | b | c | d | e | h | l
  deriving DecidableEq, Repr

/-- The four paired views, in the order of the select codes (10_state.md R13, 40_register_file.md R80). -/
inductive Pair where
  | af | bc | de | hl
  deriving DecidableEq, Repr

/-- The four flags as a record of Booleans (10_state.md R14). It is a value, not state. -/
structure Flags where
  zero      : Bool
  subtract  : Bool
  halfCarry : Bool
  carry     : Bool
  deriving DecidableEq, Repr

/-- `ArithmeticTarget`: which register supplies the second operand of ADD. Exactly four members
(30_encoding.md R62, 92_eei_decisions.md D7). -/
inductive ArithmeticTarget where
  | b | c | d | e
  deriving DecidableEq, Repr

/-- The typed instructions: one constructor for each row of opcode_table.json (30_encoding.md R61). -/
inductive Instr where
  /-- `ADD A,B`, row ADD_A_B. -/
  | addAB
  /-- `ADD A,C`, row ADD_A_C. -/
  | addAC
  /-- `ADD A,D`, row ADD_A_D. -/
  | addAD
  /-- `ADD A,E`, row ADD_A_E. -/
  | addAE
  deriving DecidableEq, Repr

/-- `ADD(t)`: the typed instruction of a target (30_encoding.md R62). -/
def Instr.add : ArithmeticTarget → Instr
  | .b => .addAB
  | .c => .addAC
  | .d => .addAD
  | .e => .addAE

/-- The target of a typed instruction (30_encoding.md R61). -/
def Instr.target : Instr → ArithmeticTarget
  | .addAB => .b
  | .addAC => .c
  | .addAD => .d
  | .addAE => .e

/-- The decoder's result: `Instr` or `Unknown(byte)` (30_encoding.md R62). -/
inductive Decoded where
  | instr (i : Instr)
  | unknown (op : Byte)
  deriving DecidableEq, Repr

/-- The ten named header fields, in the order of their tags (20_memory.md R47). -/
inductive HeaderField where
  | entryPoint | logo | title | sgbFlag | cartridgeType | romSize | ramSize | destinationCode | licenseCode | checksum
  deriving DecidableEq, Repr

/-- The commands of the block: every operation of 00_scope.md R2 that a host can issue, with its raw operands.
Selects and tags are the codes on the block's inputs (40_register_file.md R80, 20_memory.md R47). -/
inductive Command where
  /-- Reset of the whole block (70_reset_and_hazards.md R180). -/
  | reset
  /-- Reset of the CPU Core and its Register File only (R180, 92_eei_decisions.md D29). -/
  | resetCpu
  /-- Reset of the Cartridge Reader only (R180, 92_eei_decisions.md D29). -/
  | resetCartridge
  /-- 8-bit register read (40_register_file.md R82). -/
  | readReg (rsel : BitVec 3)
  /-- 8-bit register write (R82). -/
  | writeReg (rsel : BitVec 3) (v : Byte)
  /-- `get_pair` (40_register_file.md R85). -/
  | getPair (psel : BitVec 2)
  /-- `set_pair` (40_register_file.md R86). -/
  | setPair (psel : BitVec 2) (v : Word16)
  /-- `flags_to_byte` (40_register_file.md R87). -/
  | flagsToByte (fl : Flags)
  /-- `byte_to_flags` (40_register_file.md R88). -/
  | byteToFlags (v : Byte)
  /-- The arithmetic primitive `add` as a host command (41_cpu_add.md R100, 92_eei_decisions.md D30; log entry 8). -/
  | add (v : Byte)
  /-- `execute_cycle` with a raw opcode byte (41_cpu_add.md R102). -/
  | executeCycle (op : Byte)
  /-- `execute_cycle` with the typed instruction (30_encoding.md R63). -/
  | executeTyped (i : Instr)
  /-- Load of an image, the hardware form of `read_file` (42_cartridge_header.md R121). -/
  | load (bytes : List Byte)
  /-- `read_section` (42_cartridge_header.md R123). -/
  | readSection (tag : BitVec 4)
  /-- `title` (42_cartridge_header.md R124). -/
  | title
  /-- `rom_size_code` (42_cartridge_header.md R126). -/
  | romSizeCode
  /-- `ram_size_code` (R126). -/
  | ramSizeCode
  /-- `cartridge_type_code` (R126). -/
  | cartridgeTypeCode
  /-- `lic_code_raw` (R126). -/
  | licCodeRaw
  /-- `rom_size` (42_cartridge_header.md R128). -/
  | romSize
  /-- `ram_size` (42_cartridge_header.md R129). -/
  | ramSize
  /-- `cartridge_type` (42_cartridge_header.md R130). -/
  | cartridgeType
  /-- `lic_code` (42_cartridge_header.md R131). -/
  | licCode
  /-- `destination_code` (42_cartridge_header.md R132). -/
  | destinationCode
  /-- `checksum` (42_cartridge_header.md R133). -/
  | checksum
  /-- `calculate_checksum` (42_cartridge_header.md R134). -/
  | calculateChecksum
  /-- `verify_checksum` (42_cartridge_header.md R135). -/
  | verifyChecksum
  deriving DecidableEq, Repr

end Sys2Proof
end

