-- ==== Sys2Proof/WellFormed.lean ====
section
/-! DEFINITION. Which terms of the syntax the block can be given. Every typed instruction is well formed
(30_encoding.md R63: one that is not of the four cannot be written); a load's image has at most `MAX_LEN` bytes
(42_cartridge_header.md R121: `0 <= n <= MAX_LEN`); every select code and every tag is a legal input (R80, R123). -/

namespace Sys2Proof

/-- No instruction has an operand field (30_encoding.md R64), so there is nothing to check in one. -/
def Instr.wf : Instr → Bool
  | .addAB => true
  | .addAC => true
  | .addAD => true
  | .addAE => true

/-- A command's operands lie in the domain its rule gives. Only load bounds an operand beyond its width. -/
def Command.wf : Command → Bool
  | .reset => true
  | .resetCpu => true
  | .resetCartridge => true
  | .readReg _ => true
  | .writeReg _ _ => true
  | .getPair _ => true
  | .setPair _ _ => true
  | .flagsToByte _ => true
  | .byteToFlags _ => true
  | .add _ => true
  | .executeCycle _ => true
  | .executeTyped i => i.wf
  | .load bytes => decide (bytes.length ≤ Config.maxLen)
  | .readSection _ => true
  | .title => true
  | .romSizeCode => true
  | .ramSizeCode => true
  | .cartridgeTypeCode => true
  | .licCodeRaw => true
  | .romSize => true
  | .ramSize => true
  | .cartridgeType => true
  | .licCode => true
  | .destinationCode => true
  | .checksum => true
  | .calculateChecksum => true
  | .verifyChecksum => true

end Sys2Proof
end

