-- ==== Sys2Proof/Decode.lean ====
section
/-! DEFINITION. The decode step, total on all 256 byte values, and the encoder, both written from format OP8
(30_encoding.md R60 to R62). Reading no state and writing none, they are the only place the binary encoding stands. -/

namespace Sys2Proof

/-- Field `op6` of format OP8, bits 7:2 (30_encoding.md R60). -/
def op6Field (op : Byte) : BitVec 6 := op.extractLsb' 2 6

/-- Field `tgt` of format OP8, bits 1:0 (30_encoding.md R60). -/
def tgtField (op : Byte) : BitVec 2 := op.extractLsb' 0 2

/-- The family code of ADD A,r in field `op6` (30_encoding.md R60). -/
def addFamily : BitVec 6 := 0b100000#6

/-- The target a `tgt` code names (30_encoding.md R61, R62; 92_eei_decisions.md D7; log entry 15). -/
def targetOfCode (t : BitVec 2) : ArithmeticTarget :=
  if t = 0 then .b else if t = 1 then .c else if t = 2 then .d else .e

/-- The `tgt` code of a target (30_encoding.md R61). -/
def codeOfTarget : ArithmeticTarget → BitVec 2
  | .b => 0
  | .c => 1
  | .d => 2
  | .e => 3

/-- `decode` (30_encoding.md R62): first the family, then the target (R67); every other byte is `Unknown` (R65). -/
def decode (op : Byte) : Decoded :=
  if op6Field op = addFamily then .instr (.add (targetOfCode (tgtField op))) else .unknown op

/-- The one byte of an instruction: `op6` in bits 7:2 and `tgt` in bits 1:0 (30_encoding.md R60). -/
def encode (i : Instr) : Byte := addFamily ++ codeOfTarget i.target

/-- The encoding of a program: the list of its instructions' bytes in order (30_encoding.md R68). -/
def encodeProgram (prog : List Instr) : List Byte := prog.map encode

/-- The first byte of an instruction whose bits are `w`, bit 0 the least significant of the first byte; bits at and
above `nbits` are zero. Every instruction is one byte (30_encoding.md R60), so nothing beyond it is looked at. -/
def tableByte (nbits w : Nat) : Byte := BitVec.ofNat 8 (w % 2 ^ nbits)

/-- What the decoder reads from an opcode-table word; none where it answers `Unknown`. -/
def decodeTableWord (nbits w : Nat) : Option Instr :=
  match decode (tableByte nbits w) with
  | .instr i => some i
  | .unknown _ => none

end Sys2Proof
end

