-- ==== Sys2Proof/Machine/State.lean ====
section
/-! DEFINITION. The state of the block as plain data: the Register File inside the CPU Core, the Cartridge Reader,
and two fields of the model's own (the commands the host has issued, the response of the command just run). With
them the exceptions of the status output, the results of the result output, and the two ways a step can stop. -/

namespace Sys2Proof.Machine

/-- The Register File: eight 8-bit registers (10_state.md R10). -/
structure RegisterFile where
  a : Byte
  f : Byte
  b : Byte
  c : Byte
  d : Byte
  e : Byte
  h : Byte
  l : Byte
  deriving DecidableEq, Repr

/-- The run state: *idle* or *executing* (10_state.md R19). -/
inductive RunState where
  | idle | executing
  deriving DecidableEq, Repr

/-- The CPU Core owns one Register File, `pc`, `sp` and the run state (10_state.md R16). -/
structure CpuCore where
  regs : RegisterFile
  pc   : Word16
  sp   : Word16
  run  : RunState
  deriving DecidableEq, Repr

/-- The byte buffer: `len` bytes at offsets 0 to `len - 1` (20_memory.md R40), held as the cells that differ from
`unlistedByte`, offsets strictly rising (log entry 3). -/
structure Memory where
  cells : List Host.Cell
  len   : Nat
  deriving DecidableEq, Repr

/-- What an offset below `len` reads as when no cell is listed for it (log entry 3). Every byte below `len` was
written by the load, so this is how the value 0x00 is held, never a value that nothing wrote. -/
def unlistedByte : Byte := 0x00

/-- The Cartridge Reader: buffer, five cached fields, `loaded` (10_state.md R23 to R25). -/
structure CartridgeReader where
  content : Memory
  cTitle  : Vector Byte 15
  cRom    : Byte
  cRam    : Byte
  cType   : Byte
  cLic    : Byte
  loaded  : Bool
  deriving DecidableEq, Repr

/-- The exceptions of the block with their information (60_exceptions.md R152). -/
inductive Exception where
  /-- Raised by `execute_cycle` on a byte that is no instruction (R153). -/
  | unknownInstruction (op : Byte)
  /-- Raised by load on fewer than 0x150 bytes (R154). -/
  | truncatedHeader (n : Nat)
  /-- Raised by load after a successful load (R155). -/
  | alreadyLoaded
  /-- Raised by every accessor before a load (R155). -/
  | notLoaded
  /-- Raised by `read_section` on a tag above 9 (R156). -/
  | invalidSectionTag (tag : BitVec 4)
  /-- Raised by `rom_size` (R157). -/
  | unsupportedRomSize (code : Byte)
  /-- Raised by `ram_size` (R157). -/
  | unsupportedRamSize (code : Byte)
  /-- Raised by `cartridge_type` (R157). -/
  | unsupportedCartridgeType (code : Byte)
  /-- Raised by `lic_code` (R157). -/
  | unsupportedLicenseCode (code : Byte)
  /-- Raised by `destination_code` (R157). -/
  | unsupportedDestinationCode (code : Byte)
  deriving DecidableEq, Repr

/-- What a command gives on its result output, by the rule of the command. -/
inductive Result where
  /-- Nothing beside the status `OK`. -/
  | none
  /-- A register, a byte, a code, a checksum. -/
  | byte (v : Byte)
  /-- A paired view (40_register_file.md R85). -/
  | word (v : Word16)
  /-- A flags record (40_register_file.md R88). -/
  | flags (fl : Flags)
  /-- A header field or the trimmed title, ascending offsets (42_cartridge_header.md R123, R124). -/
  | bytes (bs : List Byte)
  /-- `rom_size`, `ROM_KB_WIDTH` = 32 bits (42_cartridge_header.md R128). -/
  | romKilobytes (kb : BitVec 32)
  /-- `ram_size`, `RAM_KB_WIDTH` = 8 bits (42_cartridge_header.md R129). -/
  | ramKilobytes (kb : Byte)
  /-- `cartridge_type` (42_cartridge_header.md R130). -/
  | cartridgeType (name : CartTypeName)
  /-- `lic_code` (42_cartridge_header.md R131). -/
  | licensee (name : Licensee)
  /-- `destination_code` (42_cartridge_header.md R132). -/
  | region (name : Region)
  /-- `verify_checksum` (42_cartridge_header.md R135). -/
  | verification (stored computed : Byte) (ok : Bool)
  deriving DecidableEq, Repr

/-- What a command returns: status `OK` with a result, or one exception (60_exceptions.md R151). -/
inductive Response where
  | ok (r : Result)
  | raised (e : Exception)
  deriving DecidableEq, Repr

/-- The whole state. `commands` and `port` are the model's own (log entries 1 and 2): no rule of the spec names them
as state. `commands` is one queue, since one command is in flight at a time (00_scope.md R6; log entry 17): it holds
what the host has issued, oldest first. `port` holds the response of the command that the last step ran, and `none`
where that step ran no command that answers. -/
structure State where
  cpu      : CpuCore
  cart     : CartridgeReader
  commands : List Command
  port     : Option Response
  deriving DecidableEq, Repr

/-- Why a run ends in a fault. -/
inductive Fault where
  /-- Raised by a read of `n` bytes at `addr` that passes the end of the buffer: such an offset does not exist
  (20_memory.md R42, R46). No run from reset meets it. Safe: no byte at or beyond `len` ever has a value (log entry 16). -/
  | offsetOutOfRange (addr n : Nat)
  deriving DecidableEq, Repr

/-- Why a step has no meaning. -/
inductive Refusal where
  /-- Answered by `exec` for an instruction without a meaning. Safe: the run stops. No arm answers it here. -/
  | notModelled (mnemonic : String)
  /-- Answered for a load of `n` bytes with `n` above `MAX_LEN`: outside the operand's domain (42_cartridge_header.md
  R121), so no rule gives it an effect (log entry 5). Safe: the run stops. -/
  | imageTooLong (n : Nat)
  deriving DecidableEq, Repr

/-- `new()` of the Register File (40_register_file.md R81). -/
def RegisterFile.new : RegisterFile :=
  { a := 0x00, f := 0x00, b := 0x00, c := 0x00, d := 0x00, e := 0x00, h := 0x00, l := 0x00 }

/-- `new()` of the CPU Core (41_cpu_add.md R99). -/
def CpuCore.new : CpuCore :=
  { regs := RegisterFile.new, pc := 0x0000, sp := 0x0000, run := .idle }

/-- The empty buffer (10_state.md R23). -/
def Memory.empty : Memory := { cells := [], len := 0 }

/-- `new()` of the Cartridge Reader (42_cartridge_header.md R120). -/
def CartridgeReader.new : CartridgeReader :=
  { content := Memory.empty, cTitle := Vector.replicate 15 0x00, cRom := 0x00, cRam := 0x00, cType := 0x00,
    cLic := 0x00, loaded := false }

/-- The machine right after reset (10_state.md R30, 70_reset_and_hazards.md R180); the host has issued no command. -/
def State.reset : State :=
  { cpu := CpuCore.new, cart := CartridgeReader.new, commands := [], port := none }

end Sys2Proof.Machine
end

