-- ==== Sys2Proof/Machine/Flags.lean ====
section
/-! DEFINITION. The flags register: the byte form and the record form of the four flags, the masked form that `F`
holds, and the flags that `add` derives. -/

namespace Sys2Proof.Machine

/-- The bits of a byte that `F` holds; bits 3 to 0 are hardwired to zero (10_state.md R12; log entry 9). -/
def maskF (v : Byte) : Byte := v &&& 0xF0

/-- `flags_to_byte`: zero, subtract, half-carry, carry in bits 7, 6, 5, 4 (40_register_file.md R87). -/
def flagsToByte (fl : Flags) : Byte :=
  (if fl.zero then 0x80 else 0) ||| (if fl.subtract then 0x40 else 0) |||
    (if fl.halfCarry then 0x20 else 0) ||| (if fl.carry then 0x10 else 0)

/-- `byte_to_flags`: bits 3 to 0 are ignored (40_register_file.md R88). -/
def byteToFlags (v : Byte) : Flags :=
  { zero := v.getLsbD 7, subtract := v.getLsbD 6, halfCarry := v.getLsbD 5, carry := v.getLsbD 4 }

/-- The sum of two bytes with 8-bit wraparound (41_cpu_add.md R100: `result = sum9 mod 2^8`). -/
def addResult (a v : Byte) : Byte := BitVec.ofNat 8 ((a.toNat + v.toNat) % 2 ^ 8)

/-- The four flags `add` derives, every sum exact on natural numbers (41_cpu_add.md R100). -/
def addFlags (a v : Byte) : Flags :=
  { zero := decide (addResult a v = 0)
    subtract := false
    halfCarry := decide (a.toNat % 16 + v.toNat % 16 > 0xF)
    carry := decide (a.toNat + v.toNat > 0xFF) }

end Sys2Proof.Machine
end

