-- ==== Sys2Proof/Machine/Operands.lean ====
section
/-! DEFINITION. Naming a register, a view, a header field or a target: the select codes of the block's inputs, the
one read and the one write of a register, the paired views, and the fixed header offsets. -/

namespace Sys2Proof.Machine

/-- The register of a select code (40_register_file.md R80). All eight codes are legal. -/
def regOfSel (rsel : BitVec 3) : Reg :=
  if rsel = 0 then .a else if rsel = 1 then .f else if rsel = 2 then .b else if rsel = 3 then .c
  else if rsel = 4 then .d else if rsel = 5 then .e else if rsel = 6 then .h else .l

/-- The select code of a register (40_register_file.md R80). -/
def selOfReg : Reg → BitVec 3
  | .a => 0
  | .f => 1
  | .b => 2
  | .c => 3
  | .d => 4
  | .e => 5
  | .h => 6
  | .l => 7

/-- The view of a select code (40_register_file.md R80). All four codes are legal. -/
def pairOfSel (psel : BitVec 2) : Pair :=
  if psel = 0 then .af else if psel = 1 then .bc else if psel = 2 then .de else .hl

/-- The select code of a view (40_register_file.md R80). -/
def selOfPair : Pair → BitVec 2
  | .af => 0
  | .bc => 1
  | .de => 2
  | .hl => 3

/-- The register that a target names (30_encoding.md R62). -/
def regOfTarget : ArithmeticTarget → Reg
  | .b => .b
  | .c => .c
  | .d => .d
  | .e => .e

/-- `r[X]`, the one read of a register; bits 3 to 0 of `F` read as zero (10_state.md R12, 40_register_file.md R82). -/
def RegisterFile.read (rf : RegisterFile) : Reg → Byte
  | .a => rf.a
  | .f => maskF rf.f
  | .b => rf.b
  | .c => rf.c
  | .d => rf.d
  | .e => rf.e
  | .h => rf.h
  | .l => rf.l

/-- `r[X] <- v`, the one write of a register; a write of `F` stores `v & 0xF0` (10_state.md R12,
40_register_file.md R82). -/
def RegisterFile.write (rf : RegisterFile) (x : Reg) (v : Byte) : RegisterFile :=
  match x with
  | .a => { rf with a := v }
  | .f => { rf with f := maskF v }
  | .b => { rf with b := v }
  | .c => { rf with c := v }
  | .d => { rf with d := v }
  | .e => { rf with e := v }
  | .h => { rf with h := v }
  | .l => { rf with l := v }

/-- The register in bits 15 to 8 of a view (10_state.md R13). -/
def highReg : Pair → Reg
  | .af => .a
  | .bc => .b
  | .de => .d
  | .hl => .h

/-- The register in bits 7 to 0 of a view (10_state.md R13). -/
def lowReg : Pair → Reg
  | .af => .f
  | .bc => .c
  | .de => .e
  | .hl => .l

/-- `v[15:8]` of a view's value (40_register_file.md R86). -/
def highByte (v : Word16) : Byte := v.extractLsb' 8 8

/-- `v[7:0]` of a view's value (40_register_file.md R86). -/
def lowByte (v : Word16) : Byte := v.extractLsb' 0 8

/-- The low byte of a view as it is composed: that of AF is masked (10_state.md R13, 92_eei_decisions.md D4). -/
def viewLow (p : Pair) (v : Byte) : Byte :=
  match p with
  | .af => maskF v
  | .bc => v
  | .de => v
  | .hl => v

/-- `get_pair`: high register in bits 15 to 8, low register in bits 7 to 0 (40_register_file.md R85). -/
def RegisterFile.getPair (rf : RegisterFile) (p : Pair) : Word16 :=
  rf.read (highReg p) ++ viewLow p (rf.read (lowReg p))

/-- `set_pair`: both registers of the view are written; the write of `F` masks (40_register_file.md R86). -/
def RegisterFile.setPair (rf : RegisterFile) (p : Pair) (v : Word16) : RegisterFile :=
  (rf.write (highReg p) (highByte v)).write (lowReg p) (lowByte v)

/-- The header field of a `read_section` tag; tags 10 to 15 name none (20_memory.md R47, R156). -/
def fieldOfTag (tag : BitVec 4) : Option HeaderField :=
  if tag = 0 then some .entryPoint else if tag = 1 then some .logo else if tag = 2 then some .title
  else if tag = 3 then some .sgbFlag else if tag = 4 then some .cartridgeType else if tag = 5 then some .romSize
  else if tag = 6 then some .ramSize else if tag = 7 then some .destinationCode
  else if tag = 8 then some .licenseCode else if tag = 9 then some .checksum else none

/-- The tag of a header field (20_memory.md R47). -/
def tagOfField : HeaderField → BitVec 4
  | .entryPoint => 0
  | .logo => 1
  | .title => 2
  | .sgbFlag => 3
  | .cartridgeType => 4
  | .romSize => 5
  | .ramSize => 6
  | .destinationCode => 7
  | .licenseCode => 8
  | .checksum => 9

/-- The first offset of a header field (20_memory.md R47). -/
def fieldFirst : HeaderField → Nat
  | .entryPoint => 0x100
  | .logo => 0x104
  | .title => 0x134
  | .sgbFlag => 0x146
  | .cartridgeType => 0x147
  | .romSize => 0x148
  | .ramSize => 0x149
  | .destinationCode => 0x14A
  | .licenseCode => 0x14B
  | .checksum => 0x14D

/-- The last offset of a header field, inclusive (20_memory.md R47). -/
def fieldLast : HeaderField → Nat
  | .entryPoint => 0x103
  | .logo => 0x133
  | .title => 0x142
  | .sgbFlag => 0x146
  | .cartridgeType => 0x147
  | .romSize => 0x148
  | .ramSize => 0x149
  | .destinationCode => 0x14A
  | .licenseCode => 0x14B
  | .checksum => 0x14D

/-- The number of bytes of a header field (42_cartridge_header.md R123: `last - first + 1`). -/
def fieldLength (fd : HeaderField) : Nat := fieldLast fd - fieldFirst fd + 1

end Sys2Proof.Machine
end

