-- ==== Sys2Proof/Machine/Ops.lean ====
section
/-! DEFINITION. The named operations every meaning is written over: the updates of State, the buffer's read and its
loading, answering a command, and TAKING AN EXCEPTION (`raise`). There is no return from an exception beside it: the
block has no such instruction and nothing to restore (60_exceptions.md R160). -/

namespace Sys2Proof.Machine

/-- What a meaning answers. -/
abbrev Answer := Host.Outcome State Fault Refusal

/-! ## Updates of State -/

/-- The state with another CPU Core. -/
def State.setCpu (s : State) (c : CpuCore) : State := { s with cpu := c }

/-- The state with another Register File. -/
def State.setRegs (s : State) (rf : RegisterFile) : State := { s with cpu := { s.cpu with regs := rf } }

/-- The state with another run state. -/
def State.setRun (s : State) (r : RunState) : State := { s with cpu := { s.cpu with run := r } }

/-- The state with another Cartridge Reader. -/
def State.setCart (s : State) (r : CartridgeReader) : State := { s with cart := r }

/-- The state with another response on the outputs. -/
def State.setPort (s : State) (p : Option Response) : State := { s with port := p }

/-- The state with other commands waiting. -/
def State.setCommands (s : State) (cs : List Command) : State := { s with commands := cs }

/-- The host issues a command: it runs after those issued before it (20_memory.md R51; log entry 1). -/
def State.issue (s : State) (c : Command) : State := s.setCommands (s.commands ++ [c])

/-- `r[X]` in the state. -/
def State.reg (s : State) (x : Reg) : Byte := s.cpu.regs.read x

/-- `r[X] <- v` in the state. -/
def State.setReg (s : State) (x : Reg) (v : Byte) : State := s.setRegs (s.cpu.regs.write x v)

/-- The state with the record of flags stored in `F` (41_cpu_add.md R101: through the masked write). -/
def State.setFlags (s : State) (fl : Flags) : State := s.setReg .f (flagsToByte fl)

/-! ## Answering, and taking an exception -/

/-- The command ends with status `OK` and a result (60_exceptions.md R151). -/
def respond (r : Result) (s : State) : Answer := .next (s.setPort (some (.ok r)))

/-- TAKING AN EXCEPTION, `raise E(info)`: the command ends, the state is what the rule had written before, and the
status output carries `E` and its information. Nothing is saved, no mode changes, `pc` and `sp` are untouched, and
nothing is latched for the next command (60_exceptions.md R151, R160). -/
def raise (e : Exception) (s : State) : Answer := .next (s.setPort (some (.raised e)))

/-- A command whose effect answers the next state ends with status `OK`; a stop stays a stop. -/
def completes : Answer → Answer
  | .next s => respond .none s
  | .fault r => .fault r
  | .refused r => .refused r

/-- Go on with what a partial table holds; where it holds nothing, the exception is raised. -/
def withEntry {α : Type} (entry : Option α) (e : Exception) (s : State) (k : α → Answer) : Answer :=
  match entry with
  | some x => k x
  | none => raise e s

/-! ## The buffer -/

/-- The cells of a byte sequence that starts at offset `i`: one for each byte that an unlisted offset does not read as. -/
def cellsFrom : Nat → List Byte → List Host.Cell
  | _, [] => []
  | i, b :: bs => if b = unlistedByte then cellsFrom (i + 1) bs else (i, b) :: cellsFrom (i + 1) bs

/-- Cells in canonical form from offset `i` on: strictly rising offsets, none at or beyond `len`, no unlisted value. -/
def cellsWf (len : Nat) : Nat → List Host.Cell → Bool
  | _, [] => true
  | i, (a, b) :: cs => decide (i ≤ a) && decide (a < len) && decide (b ≠ unlistedByte) && cellsWf len (a + 1) cs

/-- The buffer is in its one canonical form (log entry 3). -/
def Memory.wf (m : Memory) : Bool := cellsWf m.len 0 m.cells

/-- The byte a list of cells holds at an offset. -/
def cellAt : List Host.Cell → Nat → Byte
  | [], _ => unlistedByte
  | (a, b) :: cs, i => if a = i then b else cellAt cs i

/-- `content[i]`; none at or beyond `len` (20_memory.md R40, R46). -/
def Memory.byte? (m : Memory) (i : Nat) : Option Byte := if i < m.len then some (cellAt m.cells i) else none

/-- `MemRead(addr, n)`: `n` single-byte reads at ascending offsets (20_memory.md R42); none where one of the offsets
does not exist. -/
def Memory.read (m : Memory) (addr n : Nat) : Option (Vector Byte n) :=
  if addr + n ≤ m.len then some (Vector.ofFn fun k => cellAt m.cells (addr + k.val)) else none

/-- The buffer that holds an image: `content <- bytes; len <- n` (42_cartridge_header.md R121). -/
def Memory.ofBytes (bytes : List Byte) : Memory := { cells := cellsFrom 0 bytes, len := bytes.length }

/-- Go on with the `n` bytes at `addr`; a read past the end of the buffer is a fault. -/
def withBytes (m : Memory) (addr n : Nat) (k : Vector Byte n → Answer) : Answer :=
  match m.read addr n with
  | some v => k v
  | none => .fault (.offsetOutOfRange addr n)

/-- Go on with the one byte at `addr`. -/
def withByte (m : Memory) (addr : Nat) (k : Byte → Answer) : Answer :=
  withBytes m addr 1 fun v => k v[0]

end Sys2Proof.Machine
end

