-- ==== Sys2Proof/Machine/Cartridge.lean ====
section
/-! DEFINITION. The commands of the Cartridge Reader (42_cartridge_header.md R121 to R139). Every accessor begins with
the `loaded` test (`afterLoad`, R122) and writes no state (R137). -/

namespace Sys2Proof.Machine

/-- Load: AlreadyLoaded is tested first, then TruncatedHeader; on success the buffer and the five cached fields are
written and `loaded` is set, in one step (42_cartridge_header.md R121). An image above `MAX_LEN` is outside the
operand's domain (log entry 5). -/
def runLoad (bytes : List Byte) (s : State) : Answer :=
  if Config.maxLen < bytes.length then .refused (.imageTooLong bytes.length)
  else if s.cart.loaded then raise .alreadyLoaded s
  else if bytes.length < Config.minLen then raise (.truncatedHeader bytes.length) s
  else
    let m := Memory.ofBytes bytes
    withBytes m 0x134 15 fun title =>
    withByte m 0x147 fun type =>
    withByte m 0x148 fun rom =>
    withByte m 0x149 fun ram =>
    withByte m 0x14B fun lic =>
    respond .none (s.setCart { content := m, cTitle := title, cRom := rom, cRam := ram, cType := type, cLic := lic,
                               loaded := true })

/-- The test every accessor begins with, before any other (42_cartridge_header.md R122). -/
def afterLoad (s : State) (k : Answer) : Answer := if s.cart.loaded then k else raise .notLoaded s

/-- `read_section` (42_cartridge_header.md R123). It reads the buffer, not the cache. -/
def runReadSection (tag : BitVec 4) (s : State) : Answer :=
  afterLoad s <|
    withEntry (fieldOfTag tag) (.invalidSectionTag tag) s fun fd =>
      withBytes s.cart.content (fieldFirst fd) (fieldLength fd) fun v => respond (.bytes v.toList) s

/-- The largest `i` with a byte other than 0x00 at place `i - 1`, or 0 (42_cartridge_header.md R124). -/
def lastNonzero : List Byte → Nat
  | [] => 0
  | b :: bs => if 0 < lastNonzero bs then lastNonzero bs + 1 else if b = 0x00 then 0 else 1

/-- The title without its trailing 0x00 bytes: its first `lastNonzero` bytes (42_cartridge_header.md R124). -/
def trimTitle (bs : List Byte) : List Byte := bs.take (lastNonzero bs)

/-- `title` (42_cartridge_header.md R124). -/
def runTitle (s : State) : Answer := afterLoad s <| respond (.bytes (trimTitle s.cart.cTitle.toList)) s

/-- The text of the byte at place `i` of a trimmed title: ASCII for 0x20 to 0x7E, else OPEN (42_cartridge_header.md
R125; log entry 7). -/
def titleCharAt (title : List Byte) (i : Nat) (b : Byte) : List Char :=
  if 0x20 ≤ b.toNat ∧ b.toNat ≤ 0x7E then [Char.ofNat b.toNat] else Config.titleTextOpen title i

/-- The text of the bytes from place `i` on. -/
def titleTextFrom (title : List Byte) : Nat → List Byte → List Char
  | _, [] => []
  | i, b :: bs => titleCharAt title i b ++ titleTextFrom title (i + 1) bs

/-- `TITLE_DECODE`: the text of a trimmed title (42_cartridge_header.md R125). The block has no text output (R139). -/
def titleDecode (title : List Byte) : List Char := titleTextFrom title 0 title

/-- `rom_size_code` (42_cartridge_header.md R126). -/
def runRomSizeCode (s : State) : Answer := afterLoad s <| respond (.byte s.cart.cRom) s

/-- `ram_size_code` (42_cartridge_header.md R126). -/
def runRamSizeCode (s : State) : Answer := afterLoad s <| respond (.byte s.cart.cRam) s

/-- `cartridge_type_code` (42_cartridge_header.md R126). -/
def runCartridgeTypeCode (s : State) : Answer := afterLoad s <| respond (.byte s.cart.cType) s

/-- `lic_code_raw` (42_cartridge_header.md R126). -/
def runLicCodeRaw (s : State) : Answer := afterLoad s <| respond (.byte s.cart.cLic) s

/-- `rom_size`: `32 * 2^code`, exact in 32 bits for codes 0 to 26 (42_cartridge_header.md R128; log entry 14). -/
def runRomSize (s : State) : Answer :=
  afterLoad s <|
    if s.cart.cRom.toNat > 26 then raise (.unsupportedRomSize s.cart.cRom) s
    else respond (.romKilobytes (BitVec.ofNat 32 (32 * 2 ^ s.cart.cRom.toNat))) s

/-- The RAM-size table (42_cartridge_header.md R129). -/
def ramTable (code : Byte) : Option Byte :=
  if code = 0 then some 0 else if code = 1 then some 2 else if code = 2 then some 8
  else if code = 3 then some 32 else none

/-- `ram_size` (42_cartridge_header.md R129). -/
def runRamSize (s : State) : Answer :=
  afterLoad s <|
    withEntry (ramTable s.cart.cRam) (.unsupportedRamSize s.cart.cRam) s fun kb => respond (.ramKilobytes kb) s

/-- `cartridge_type` (42_cartridge_header.md R130). -/
def runCartridgeType (s : State) : Answer :=
  afterLoad s <|
    withEntry (Config.cartTypeTable s.cart.cType) (.unsupportedCartridgeType s.cart.cType) s fun name =>
      respond (.cartridgeType name) s

/-- `lic_code` (42_cartridge_header.md R131). -/
def runLicCode (s : State) : Answer :=
  afterLoad s <|
    withEntry (Config.licTable s.cart.cLic) (.unsupportedLicenseCode s.cart.cLic) s fun name =>
      respond (.licensee name) s

/-- `destination_code`: reads the buffer, there is no cached byte (42_cartridge_header.md R132, 90_conflicts.md C9). -/
def runDestinationCode (s : State) : Answer :=
  afterLoad s <|
    withByte s.cart.content 0x14A fun d =>
      withEntry (Config.destTable d) (.unsupportedDestinationCode d) s fun name => respond (.region name) s

/-- `checksum`: the stored byte (42_cartridge_header.md R133). -/
def runChecksum (s : State) : Answer :=
  afterLoad s <| withByte s.cart.content 0x14D fun v => respond (.byte v) s

/-- One step of the accumulator: `x = (x - zext_16(byte) - 1) mod 2^16` (42_cartridge_header.md R134). -/
def checksumStep (x : Word16) (b : Byte) : Word16 := x - b.setWidth 16 - 1

/-- The accumulator after a window, from 0, bytes ascending (42_cartridge_header.md R134). -/
def checksumAccumulator (window : List Byte) : Word16 := window.foldl checksumStep 0x0000

/-- `x[7:0]` of the accumulator (42_cartridge_header.md R134). -/
def checksumOf (window : List Byte) : Byte := (checksumAccumulator window).setWidth 8

/-- `calculate_checksum` over offsets 0x134 to 0x14C (42_cartridge_header.md R134). -/
def runCalculateChecksum (s : State) : Answer :=
  afterLoad s <| withBytes s.cart.content 0x134 25 fun v => respond (.byte (checksumOf v.toList)) s

/-- `verify_checksum`: a mismatch is a result, not an exception (42_cartridge_header.md R135). -/
def runVerifyChecksum (s : State) : Answer :=
  afterLoad s <|
    withByte s.cart.content 0x14D fun stored =>
    withBytes s.cart.content 0x134 25 fun v =>
      let computed := checksumOf v.toList
      respond (.verification stored computed (decide (stored = computed))) s

end Sys2Proof.Machine
end

