-- ==== Sys2Proof/Machine/Add.lean ====
section
/-! DEFINITION. The arithmetic primitive `add` and the family ADD A,r: a meaning for each of the four instructions,
over one shared operation (41_cpu_add.md R100 to R106). -/

namespace Sys2Proof.Machine

/-- `add(value)`: reads `A` once, writes all four flags to `F`, returns the wrapped sum, and does not write `A`
(41_cpu_add.md R100). -/
def add (value : Byte) (s : State) : Byte × State :=
  let a := s.reg .a
  (addResult a value, s.setFlags (addFlags a value))

/-- `v = r[t]; res = add(v); r[A] <- res`, the shared operation of the family (41_cpu_add.md R103 to R106). -/
def addToAccumulator (t : ArithmeticTarget) (s : State) : State :=
  let v := s.reg (regOfTarget t)
  let (res, s1) := add v s
  s1.setReg .a res

/-- `ADD A,B` (41_cpu_add.md R103). -/
def execAddAB (s : State) : Answer := .next (addToAccumulator .b s)

/-- `ADD A,C` (41_cpu_add.md R104). -/
def execAddAC (s : State) : Answer := .next (addToAccumulator .c s)

/-- `ADD A,D` (41_cpu_add.md R105). -/
def execAddAD (s : State) : Answer := .next (addToAccumulator .d s)

/-- `ADD A,E` (41_cpu_add.md R106). -/
def execAddAE (s : State) : Answer := .next (addToAccumulator .e s)

end Sys2Proof.Machine
end

