-- ==== Sys2Proof/Machine/Registers.lean ====
section
/-! DEFINITION. The commands of the Register File and the reset inputs (40_register_file.md, 70_reset_and_hazards.md
R180), and `add` as a host command. None of them raises an exception (60_exceptions.md R152). -/

namespace Sys2Proof.Machine

/-- Reset of the whole block: every component at its `new()` (R180; log entry 10). What the host has issued after it
still waits, and the outputs carry no response. -/
def runReset (s : State) : Answer :=
  .next (((s.setCpu CpuCore.new).setCart CartridgeReader.new).setPort none)

/-- Reset of the CPU Core with its Register File (41_cpu_add.md R99, 92_eei_decisions.md D29). -/
def runResetCpu (s : State) : Answer := .next ((s.setCpu CpuCore.new).setPort none)

/-- Reset of the Cartridge Reader (42_cartridge_header.md R120, 92_eei_decisions.md D29). -/
def runResetCartridge (s : State) : Answer := .next ((s.setCart CartridgeReader.new).setPort none)

/-- 8-bit register read (40_register_file.md R82). -/
def runReadReg (rsel : BitVec 3) (s : State) : Answer := respond (.byte (s.reg (regOfSel rsel))) s

/-- 8-bit register write (40_register_file.md R82). -/
def runWriteReg (rsel : BitVec 3) (v : Byte) (s : State) : Answer := respond .none (s.setReg (regOfSel rsel) v)

/-- `get_pair` (40_register_file.md R85). -/
def runGetPair (psel : BitVec 2) (s : State) : Answer := respond (.word (s.cpu.regs.getPair (pairOfSel psel))) s

/-- `set_pair` (40_register_file.md R86). -/
def runSetPair (psel : BitVec 2) (v : Word16) (s : State) : Answer :=
  respond .none (s.setRegs (s.cpu.regs.setPair (pairOfSel psel) v))

/-- `flags_to_byte` (40_register_file.md R87). -/
def runFlagsToByte (fl : Flags) (s : State) : Answer := respond (.byte (flagsToByte fl)) s

/-- `byte_to_flags` (40_register_file.md R88). -/
def runByteToFlags (v : Byte) (s : State) : Answer := respond (.flags (byteToFlags v)) s

/-- `add` as a host command: writes `F`, returns the sum, leaves `A` (41_cpu_add.md R100, 92_eei_decisions.md D30). -/
def runAdd (v : Byte) (s : State) : Answer :=
  let (res, s1) := add v s
  respond (.byte res) s1

end Sys2Proof.Machine
end

