-- ==== Sys2Proof/Machine/Commands.lean ====
section
/-! DEFINITION. `execute_cycle` (41_cpu_add.md R102) and the dispatch of a command to its meaning. One command is one
atomic step (00_scope.md R6). -/

namespace Sys2Proof.Machine

/-- Execution of a decoded opcode: `run <- executing`, then the instruction's meaning, or UnknownInstruction
(41_cpu_add.md R102, R107; log entry 12). `pc` and `sp` are neither read nor written. -/
def executeDecoded (d : Decoded) (s : State) : Answer :=
  match d with
  | .instr i => completes (exec i (s.setRun .executing))
  | .unknown op => raise (.unknownInstruction op) (s.setRun .executing)

/-- `execute_cycle` with a raw opcode byte: `execute_typed(decode(byte))` (30_encoding.md R63). -/
def runExecuteCycle (op : Byte) (s : State) : Answer := executeDecoded (decode op) s

/-- `execute_cycle` with the typed instruction (30_encoding.md R63). -/
def runExecuteTyped (i : Instr) (s : State) : Answer := executeDecoded (.instr i) s

/-- One command, run on a state from which it has been taken. -/
def runCommand (c : Command) (s : State) : Answer :=
  match c with
  | .reset => runReset s
  | .resetCpu => runResetCpu s
  | .resetCartridge => runResetCartridge s
  | .readReg rsel => runReadReg rsel s
  | .writeReg rsel v => runWriteReg rsel v s
  | .getPair psel => runGetPair psel s
  | .setPair psel v => runSetPair psel v s
  | .flagsToByte fl => runFlagsToByte fl s
  | .byteToFlags v => runByteToFlags v s
  | .add v => runAdd v s
  | .executeCycle op => runExecuteCycle op s
  | .executeTyped i => runExecuteTyped i s
  | .load bytes => runLoad bytes s
  | .readSection tag => runReadSection tag s
  | .title => runTitle s
  | .romSizeCode => runRomSizeCode s
  | .ramSizeCode => runRamSizeCode s
  | .cartridgeTypeCode => runCartridgeTypeCode s
  | .licCodeRaw => runLicCodeRaw s
  | .romSize => runRomSize s
  | .ramSize => runRamSize s
  | .cartridgeType => runCartridgeType s
  | .licCode => runLicCode s
  | .destinationCode => runDestinationCode s
  | .checksum => runChecksum s
  | .calculateChecksum => runCalculateChecksum s
  | .verifyChecksum => runVerifyChecksum s

/-- One step: the oldest waiting command runs (20_memory.md R51; log entry 1); with none waiting nothing changes but
that the outputs carry no response (60_exceptions.md R151; log entries 2 and 13). -/
def stepCommand (s : State) : Answer :=
  match s.commands with
  | [] => .next (s.setPort none)
  | c :: cs => runCommand c ((s.setCommands cs).setPort none)

/-- The program's opcode bytes, issued one `execute_cycle` each, in order (30_encoding.md R68). -/
def programCommands (prog : List Instr) : List Command := (encodeProgram prog).map .executeCycle

end Sys2Proof.Machine
end

