-- ==== Sys2Proof/Machine/Step.lean ====
section
/-! DEFINITION. One step of the block, and how an instruction is placed so that the next step runs it: the block does
not fetch, the host gives the opcode byte with the command (00_scope.md R3, 20_memory.md R54; log entry 1). -/

namespace Sys2Proof.Machine

/-- One step: one command (00_scope.md R6). -/
def step (s : State) : Host.Outcome State Fault Refusal := stepCommand s

/-- The host issues `execute_cycle` with the table word's byte, to run next. Nothing else changes. -/
def State.withFetchWord (s : State) (nbits w : Nat) : State :=
  s.setCommands (.executeCycle (tableByte nbits w) :: s.commands)

end Sys2Proof.Machine
end

