-- ==== Sys2Proof/Machine/Assembler.lean ====
section
/-! DEFINITION. The notation of a program: one instruction a line, a comment from `;` to the end of the line
(30_encoding.md R68). There are no pseudo-instructions, directives or labels. Notation only: no step reads it. -/

namespace Sys2Proof.Machine

/-- The letter of a target register. -/
def targetLetter : ArithmeticTarget → Char
  | .b => 'B'
  | .c => 'C'
  | .d => 'D'
  | .e => 'E'

/-- The text of an instruction: mnemonic, a space, `A`, a comma, the target (30_encoding.md R68). -/
def instrText (i : Instr) : List Char := ['A', 'D', 'D', ' ', 'A', ',', targetLetter i.target]

/-- A line without its comment. -/
def stripComment : List Char → List Char
  | [] => []
  | ch :: rest => if ch = ';' then [] else ch :: stripComment rest

/-- A line without the spaces it ends in (log entry 11). -/
def dropTrailingSpaces : List Char → List Char
  | [] => []
  | ch :: rest =>
    if dropTrailingSpaces rest = [] ∧ ch = ' ' then [] else ch :: dropTrailingSpaces rest

/-- The instruction of a text without comment and trailing spaces. -/
def instrOfText (text : List Char) : Option Instr :=
  if text = instrText .addAB then some .addAB
  else if text = instrText .addAC then some .addAC
  else if text = instrText .addAD then some .addAD
  else if text = instrText .addAE then some .addAE
  else none

/-- A line as it is written: an instruction or none, spaces, a comment or none. -/
structure SourceLine where
  instr   : Option Instr
  spaces  : Nat
  comment : Option (List Char)
  deriving DecidableEq, Repr

/-- The text of a line (30_encoding.md R68): a comment runs from `;` to the end of the line. -/
def SourceLine.text (line : SourceLine) : List Char :=
  (line.instr.map instrText).getD [] ++ List.replicate line.spaces ' ' ++
    (line.comment.map fun text => ';' :: text).getD []

/-- The instructions of one line: none on a line that holds only a comment or nothing; no answer on any other text. -/
def parseLine (line : List Char) : Option (List Instr) :=
  let text := dropTrailingSpaces (stripComment line)
  if text = [] then some [] else (instrOfText text).map fun i => [i]

/-- The program of a list of lines, in order; no answer where some line is none of the notation. -/
def parseProgram : List (List Char) → Option (List Instr)
  | [] => some []
  | line :: rest => (parseLine line).bind fun is => (parseProgram rest).map fun js => is ++ js

end Sys2Proof.Machine
end

