-- ==== Sys2Proof/Machine/Front.lean ====
section
/-! DEFINITION. The host side of a load and of the report, as far as the spec gives it: `read_file(path)` and the two
host-level conditions that never reach the block (42_cartridge_header.md R138, 60_exceptions.md R161), and the values
the report is made of (42_cartridge_header.md R139). The block itself has no step for them. -/

namespace Sys2Proof.Machine

/-- What the front end is started with: no path, or a path and what the file system gives for it (the file's bytes,
or none where the path does not exist or is unreadable). -/
inductive Invocation where
  | noPath
  | path (file : Option (List Byte))
  deriving DecidableEq, Repr

/-- The host-level conditions (60_exceptions.md R161). They have no code on the status output. -/
inductive HostCondition where
  | fileNotFound
  | invalidInvocation
  deriving DecidableEq, Repr

/-- `read_file(path)`: a load with the file's entire contents, or a host-level condition and no load
(42_cartridge_header.md R138). -/
def readFile : Invocation → Except HostCondition Command
  | .noPath => .error .invalidInvocation
  | .path none => .error .fileNotFound
  | .path (some bytes) => .ok (.load bytes)

/-- The host reads a file and issues the load; a host-level condition leaves the block as it was. -/
def hostReadFile (inv : Invocation) (s : State) : Option HostCondition × State :=
  match readFile inv with
  | .ok c => (none, s.issue c)
  | .error h => (some h, s)

/-- The accessors whose results the report prints, in its order (42_cartridge_header.md R139). -/
def reportCommands : List Command :=
  [.title, .romSize, .ramSize, .cartridgeType, .licCode, .destinationCode, .verifyChecksum]

end Sys2Proof.Machine
end

