-- ==== Sys2Proof/Machine/Ports.lean ====
section
/-! DEFINITION. What a host sees on the block's outputs: `pc`, `sp` and `run` (10_state.md R17 to R19), and the status,
information and result of the command just run (60_exceptions.md R151, R152; 92_eei_decisions.md D12). -/

namespace Sys2Proof.Machine

/-- The code of an exception on the status output (60_exceptions.md R152). -/
def Exception.code : Exception → BitVec 4
  | .unknownInstruction _ => 1
  | .truncatedHeader _ => 2
  | .alreadyLoaded => 3
  | .notLoaded => 4
  | .invalidSectionTag _ => 5
  | .unsupportedRomSize _ => 6
  | .unsupportedRamSize _ => 7
  | .unsupportedCartridgeType _ => 8
  | .unsupportedLicenseCode _ => 9
  | .unsupportedDestinationCode _ => 10

/-- The information an exception carries, as a number; none where R152 gives it none. -/
def Exception.info : Exception → Option Nat
  | .unknownInstruction op => some op.toNat
  | .truncatedHeader n => some n
  | .alreadyLoaded => none
  | .notLoaded => none
  | .invalidSectionTag tag => some tag.toNat
  | .unsupportedRomSize code => some code.toNat
  | .unsupportedRamSize code => some code.toNat
  | .unsupportedCartridgeType code => some code.toNat
  | .unsupportedLicenseCode code => some code.toNat
  | .unsupportedDestinationCode code => some code.toNat

/-- The status of a response; `OK` is 0 (60_exceptions.md R152). -/
def Response.status : Response → BitVec 4
  | .ok _ => 0
  | .raised e => e.code

/-- The information of a response. -/
def Response.info : Response → Option Nat
  | .ok _ => none
  | .raised e => e.info

/-- The result of a response; it is not meaningful after an exception (60_exceptions.md R151), so none. -/
def Response.result : Response → Option Result
  | .ok r => some r
  | .raised _ => none

/-- The encoding of the run state: 0 idle, 1 executing (10_state.md R19). -/
def RunState.code : RunState → BitVec 1
  | .idle => 0
  | .executing => 1

/-- The block's outputs. `status`, `info` and `result` belong to a command and are not held between commands. -/
structure Outputs where
  pc     : Word16
  sp     : Word16
  run    : BitVec 1
  status : Option (BitVec 4)
  info   : Option Nat
  result : Option Result
  deriving DecidableEq, Repr

/-- The outputs a host reads in a state. -/
def State.outputs (s : State) : Outputs :=
  { pc := s.cpu.pc
    sp := s.cpu.sp
    run := s.cpu.run.code
    status := s.port.map Response.status
    info := s.port.bind Response.info
    result := s.port.bind Response.result }

end Sys2Proof.Machine
end

