-- ==== Sys2Proof/Safety.lean ====
section
/-! DEFINITION. What holds of every reachable state, which commands belong to which component, and what counts as a
clean run of opcodes (93_implementation_defined.md U1). -/

namespace Sys2Proof.Machine

/-- The CPU Core in every reachable state: bits 3 to 0 of `F` are zero (10_state.md R12), `pc` and `sp` are zero
(10_state.md R17, R18). -/
def CpuCore.Inv (c : CpuCore) : Prop := c.regs.f &&& 0x0F = 0 ∧ c.pc = 0x0000 ∧ c.sp = 0x0000

/-- Each cached field equals the buffer bytes it was copied from (10_state.md R24). -/
def CartridgeReader.CacheAgrees (r : CartridgeReader) : Prop :=
  r.content.read 0x134 15 = some r.cTitle ∧ r.content.byte? 0x147 = some r.cType ∧
    r.content.byte? 0x148 = some r.cRom ∧ r.content.byte? 0x149 = some r.cRam ∧ r.content.byte? 0x14B = some r.cLic

/-- The Cartridge Reader in every reachable state: its buffer is in canonical form; unloaded it is as `new()` left it
(10_state.md R23, R25); loaded its length lies between `MIN_LEN` and `MAX_LEN` and its cache agrees (R23, R24). -/
def CartridgeReader.Inv (r : CartridgeReader) : Prop :=
  r.content.wf = true ∧ (r.loaded = false → r = CartridgeReader.new) ∧
    (r.loaded = true → Config.minLen ≤ r.content.len ∧ r.content.len ≤ Config.maxLen ∧ r.CacheAgrees)

/-- The invariant of the block. -/
def State.Inv (s : State) : Prop := s.cpu.Inv ∧ s.cart.Inv

/-- The Cartridge Reader is loaded and holds this image: byte `i` of the buffer is byte `i` of the image, and there
is none beyond (20_memory.md R40). -/
def State.HoldsImage (s : State) (image : List Byte) : Prop :=
  s.cart.Inv ∧ s.cart.loaded = true ∧ ∀ i, s.cart.content.byte? i = image[i]?

/-- Every waiting command is one the block can be given. -/
def State.CommandsWf (s : State) : Prop := ∀ c ∈ s.commands, c.wf = true

end Sys2Proof.Machine

namespace Sys2Proof

/-- The commands of the CPU Core and its Register File (00_scope.md R2 (a), (b)). -/
def Command.toCpu : Command → Bool
  | .resetCpu | .readReg _ | .writeReg _ _ | .getPair _ | .setPair _ _ | .flagsToByte _ | .byteToFlags _ | .add _
  | .executeCycle _ | .executeTyped _ => true
  | .reset | .resetCartridge | .load _ | .readSection _ | .title | .romSizeCode | .ramSizeCode | .cartridgeTypeCode
  | .licCodeRaw | .romSize | .ramSize | .cartridgeType | .licCode | .destinationCode | .checksum | .calculateChecksum
  | .verifyChecksum => false

/-- The three reset inputs (70_reset_and_hazards.md R180, 92_eei_decisions.md D29). They answer nothing on the outputs. -/
def Command.isReset : Command → Bool
  | .reset | .resetCpu | .resetCartridge => true
  | .readReg _ | .writeReg _ _ | .getPair _ | .setPair _ _ | .flagsToByte _ | .byteToFlags _ | .add _
  | .executeCycle _ | .executeTyped _ | .load _ | .readSection _ | .title | .romSizeCode | .ramSizeCode
  | .cartridgeTypeCode | .licCodeRaw | .romSize | .ramSize | .cartridgeType | .licCode | .destinationCode | .checksum
  | .calculateChecksum | .verifyChecksum => false

/-- The accessors of the Cartridge Reader: the operations of 42_cartridge_header.md R123 to R135. -/
def Command.isAccessor : Command → Bool
  | .readSection _ | .title | .romSizeCode | .ramSizeCode | .cartridgeTypeCode | .licCodeRaw | .romSize | .ramSize
  | .cartridgeType | .licCode | .destinationCode | .checksum | .calculateChecksum | .verifyChecksum => true
  | .reset | .resetCpu | .resetCartridge | .readReg _ | .writeReg _ _ | .getPair _ | .setPair _ _ | .flagsToByte _
  | .byteToFlags _ | .add _ | .executeCycle _ | .executeTyped _ | .load _ => false

/-- The commands of the Cartridge Reader (00_scope.md R2 (c)). -/
def Command.toCart : Command → Bool
  | .resetCartridge | .load _ => true
  | .readSection _ | .title | .romSizeCode | .ramSizeCode | .cartridgeTypeCode | .licCodeRaw | .romSize | .ramSize
  | .cartridgeType | .licCode | .destinationCode | .checksum | .calculateChecksum | .verifyChecksum => true
  | .reset | .resetCpu | .readReg _ | .writeReg _ _ | .getPair _ | .setPair _ _ | .flagsToByte _
  | .byteToFlags _ | .add _ | .executeCycle _ | .executeTyped _ => false

end Sys2Proof

namespace Sys2Proof.Machine

/-- The step that led to this state raised UnknownInstruction. -/
def State.raisedUnknown (s : State) : Bool :=
  match s.port with
  | some (.raised (.unknownInstruction _)) => true
  | _ => false

/-- None of the next `k` steps stops or raises UnknownInstruction. The observed software aborts where a run is not
clean, so a claim about that software takes a clean run as its premise (93_implementation_defined.md U1). -/
def cleanRun : Nat → State → Bool
  | 0, _ => true
  | k + 1, s =>
    match step s with
    | .next t => !t.raisedUnknown && cleanRun k t
    | .fault _ => false
    | .refused _ => false

end Sys2Proof.Machine
end

