-- ==== Sys2Proof/Certificates/Slice0/Obligations.lean ====
section
/-! DEFINITION. The statements for the provers, in the order of OBLIGATIONS.json. A statement marked "the spec's own
decision" rests on an entry D<n> of 92_eei_decisions.md or on a rule the spec marks as derived, and one marked "the
model's choice" on a log entry; neither is a rule of the source, so neither has basis 'stated'. -/

open Sys2Proof Sys2Proof.Machine

/-! ## Reset -/

/-- R81, R120: `new()` of the Register File and of the Cartridge Reader, by construction and by the reset input. -/
def Obligations.NewZeroesRegistersAndReader : Prop :=
  (∀ x, RegisterFile.new.read x = 0x00) ∧
  byteToFlags (RegisterFile.new.read .f) = ⟨false, false, false, false⟩ ∧
  (∀ p, RegisterFile.new.getPair p = 0x0000) ∧
  CartridgeReader.new.content.len = 0 ∧ (∀ i, CartridgeReader.new.content.byte? i = none) ∧
  CartridgeReader.new.cTitle.toList = List.replicate 15 0x00 ∧ CartridgeReader.new.cRom = 0 ∧
  CartridgeReader.new.cRam = 0 ∧ CartridgeReader.new.cType = 0 ∧ CartridgeReader.new.cLic = 0 ∧
  CartridgeReader.new.loaded = false ∧
  CpuCore.new.regs = RegisterFile.new ∧
  ∀ (s : State) (cs : List Command), s.commands = .reset :: cs →
    ∃ t, step s = .next t ∧ t.cpu.regs = RegisterFile.new ∧ t.cart = CartridgeReader.new ∧
      ∀ e, t.port ≠ some (.raised e)

/-- The reset values of 10_state.md section 5. That reset is the three `new()` together is the spec's own decision
(D2); that no command waits and no response stands is the model's choice (log entries 1, 2). -/
def Obligations.ResetStateHoldsTheTable : Prop :=
  (∀ x, State.reset.reg x = 0x00) ∧ byteToFlags (State.reset.reg .f) = ⟨false, false, false, false⟩ ∧
  (∀ p, State.reset.cpu.regs.getPair p = 0x0000) ∧ State.reset.cpu.pc = 0x0000 ∧ State.reset.cpu.sp = 0x0000 ∧
  State.reset.cpu.run.code = 0 ∧ State.reset.cart.content = ⟨[], 0⟩ ∧
  State.reset.cart.cTitle.toList = List.replicate 15 0x00 ∧ State.reset.cart.cRom = 0x00 ∧
  State.reset.cart.cRam = 0x00 ∧ State.reset.cart.cType = 0x00 ∧ State.reset.cart.cLic = 0x00 ∧
  State.reset.cart.loaded = false ∧ State.reset.commands = [] ∧ State.reset.port = none

/-- Reset at any time between commands, of the whole block or of one side: the spec's own decision (D2, D29). Commands
issued after it still wait, and no response stands (log entries 1, 2, 10). -/
def Obligations.ResetCommandsRestoreNew : Prop :=
  ∀ (s : State) (cs : List Command),
    (s.commands = .reset :: cs → step s = .next { State.reset with commands := cs }) ∧
    (s.commands = .resetCpu :: cs →
      step s = .next { s with cpu := State.reset.cpu, commands := cs, port := none }) ∧
    (s.commands = .resetCartridge :: cs →
      step s = .next { s with cart := State.reset.cart, commands := cs, port := none })

/-- R99: `new()` of the CPU Core, and no other command writes `pc` or `sp`. -/
def Obligations.OnlyResetWritesPcAndSp : Prop :=
  CpuCore.new = ⟨RegisterFile.new, 0x0000, 0x0000, .idle⟩ ∧
  ∀ (s t : State) (c : Command) (cs : List Command), s.commands = c :: cs → step s = .next t →
    ((c = .reset ∨ c = .resetCpu) ∧ t.cpu = CpuCore.new) ∨ (t.cpu.pc = s.cpu.pc ∧ t.cpu.sp = s.cpu.sp)

/-! ## Register File -/

/-- R87: `flags_to_byte` puts each flag at its bit, leaves the low nibble zero, and writes no state. -/
def Obligations.FlagsToByteBitPositions : Prop :=
  (∀ (fl : Flags) (s : State), ∃ v : Byte,
    runCommand (.flagsToByte fl) s = .next { s with port := some (.ok (.byte v)) } ∧
    v.getLsbD 7 = fl.zero ∧ v.getLsbD 6 = fl.subtract ∧ v.getLsbD 5 = fl.halfCarry ∧ v.getLsbD 4 = fl.carry ∧
    v &&& 0x0F = 0 ∧
    v.toNat = (if fl.zero then 0x80 else 0) + (if fl.subtract then 0x40 else 0) +
      (if fl.halfCarry then 0x20 else 0) + (if fl.carry then 0x10 else 0)) ∧
  flagsToByte ⟨true, false, true, true⟩ = 0xB0

/-- R88: `byte_to_flags` reads bits 7 to 4, ignores bits 3 to 0, and writes no state. -/
def Obligations.ByteToFlagsReadsUpperNibble : Prop :=
  (∀ (b : Byte) (s : State), runCommand (.byteToFlags b) s =
    .next { s with port := some (.ok (.flags ⟨b.getLsbD 7, b.getLsbD 6, b.getLsbD 5, b.getLsbD 4⟩)) }) ∧
  byteToFlags 0x3A = ⟨false, false, true, true⟩ ∧ byteToFlags 0x0F = ⟨false, false, false, false⟩ ∧
  byteToFlags 0xFF = ⟨true, true, true, true⟩

/-- The round trips of the conversions (40_register_file.md section 6, which the spec marks derived). -/
def Obligations.FlagConversionsRoundTrip : Prop :=
  (∀ fl : Flags, byteToFlags (flagsToByte fl) = fl) ∧
  (∀ x : Byte, flagsToByte (byteToFlags x) = x &&& 0xF0) ∧
  (∀ x : Byte, byteToFlags (flagsToByte (byteToFlags x)) = byteToFlags x)

/-- 8-bit write then read through the select codes: the register written, every other register and all other state
kept. The codes and the masking of a write of `F` are the spec's own decisions (D5, D3). -/
def Obligations.RegisterWriteThenRead : Prop :=
  [0, 1, 2, 3, 4, 5, 6, 7].map (fun n => regOfSel (BitVec.ofNat 3 n)) = [.a, .f, .b, .c, .d, .e, .h, .l] ∧
  ∀ (rsel : BitVec 3) (v : Byte) (s : State), ∃ t, runCommand (.writeReg rsel v) s = .next t ∧
    t.port = some (.ok .none) ∧ t.cart = s.cart ∧ t.commands = s.commands ∧ t.cpu.pc = s.cpu.pc ∧
    t.cpu.sp = s.cpu.sp ∧ t.cpu.run = s.cpu.run ∧ (∀ y, y ≠ regOfSel rsel → t.reg y = s.reg y) ∧
    runCommand (.readReg rsel) t =
      .next { t with port := some (.ok (.byte (if rsel = 1 then v &&& 0xF0 else v))) }

/-- R86: `set_pair` writes the two registers of the view and no other; that of AF masks the low byte. -/
def Obligations.SetPairWritesBothRegisters : Prop :=
  (∀ (v : Word16) (s : State),
    runCommand (.setPair (selOfPair .af) v) s = .next { s with
      cpu := { s.cpu with regs := { s.cpu.regs with a := v.extractLsb' 8 8, f := v.extractLsb' 0 8 &&& 0xF0 } },
      port := some (.ok .none) } ∧
    runCommand (.setPair (selOfPair .bc) v) s = .next { s with
      cpu := { s.cpu with regs := { s.cpu.regs with b := v.extractLsb' 8 8, c := v.extractLsb' 0 8 } },
      port := some (.ok .none) } ∧
    runCommand (.setPair (selOfPair .de) v) s = .next { s with
      cpu := { s.cpu with regs := { s.cpu.regs with d := v.extractLsb' 8 8, e := v.extractLsb' 0 8 } },
      port := some (.ok .none) } ∧
    runCommand (.setPair (selOfPair .hl) v) s = .next { s with
      cpu := { s.cpu with regs := { s.cpu.regs with h := v.extractLsb' 8 8, l := v.extractLsb' 0 8 } },
      port := some (.ok .none) }) ∧
  (∀ (v : Word16) (rf : RegisterFile),
    byteToFlags ((rf.setPair .af v).read .f) = ⟨v.getLsbD 7, v.getLsbD 6, v.getLsbD 5, v.getLsbD 4⟩) ∧
  (RegisterFile.new.setPair .af 0x12FF).a = 0x12 ∧ (RegisterFile.new.setPair .af 0x12FF).f = 0xF0 ∧
  (RegisterFile.new.setPair .hl 0xBEEF).h = 0xBE ∧ (RegisterFile.new.setPair .hl 0xBEEF).l = 0xEF

/-- `get_pair` composes the view, high register first, and writes no state. The select codes and the mask on the
read of AF are the spec's own decisions (D5, D4). -/
def Obligations.GetPairComposesTheView : Prop :=
  ∀ s : State, ∃ af bc de hl : Word16,
    runCommand (.getPair 0) s = .next { s with port := some (.ok (.word af)) } ∧
    runCommand (.getPair 1) s = .next { s with port := some (.ok (.word bc)) } ∧
    runCommand (.getPair 2) s = .next { s with port := some (.ok (.word de)) } ∧
    runCommand (.getPair 3) s = .next { s with port := some (.ok (.word hl)) } ∧
    af.toNat = 256 * s.cpu.regs.a.toNat + (s.cpu.regs.f &&& 0xF0).toNat ∧
    bc.toNat = 256 * s.cpu.regs.b.toNat + s.cpu.regs.c.toNat ∧
    de.toNat = 256 * s.cpu.regs.d.toNat + s.cpu.regs.e.toNat ∧
    hl.toNat = 256 * s.cpu.regs.h.toNat + s.cpu.regs.l.toNat

/-- The round trips of the views (40_register_file.md section 6, which the spec marks derived). The last holds where
bits 3 to 0 of `F` are zero, as in every reachable state. -/
def Obligations.ViewsRoundTrip : Prop :=
  (∀ (rf : RegisterFile) (v : Word16), (rf.setPair .af v).getPair .af = v &&& 0xFFF0) ∧
  (∀ (rf : RegisterFile) (p : Pair) (v : Word16), p ≠ .af → (rf.setPair p v).getPair p = v) ∧
  (∀ (rf : RegisterFile) (p : Pair), rf.f &&& 0x0F = 0 → rf.setPair p (rf.getPair p) = rf)

/-! ## The ADD family -/

/-- Instruction `i` completes from every state: `A` becomes the wrapped sum of `A` and `r`, all four flags are written
from the values before it, and nothing else changes. -/
def Sys2Proof.Machine.AddsToAccumulator (i : Instr) (r : Reg) : Prop :=
  ∀ s : State, ∃ t, exec i s = .next t ∧
    (t.reg .a).toNat = ((s.reg .a).toNat + (s.reg r).toNat) % 256 ∧
    byteToFlags (t.reg .f) =
      { zero := decide (((s.reg .a).toNat + (s.reg r).toNat) % 256 = 0)
        subtract := false
        halfCarry := decide ((s.reg .a).toNat % 16 + (s.reg r).toNat % 16 > 0xF)
        carry := decide ((s.reg .a).toNat + (s.reg r).toNat > 0xFF) } ∧
    t.cpu.regs.f &&& 0x0F = 0 ∧
    t.cpu.regs.b = s.cpu.regs.b ∧ t.cpu.regs.c = s.cpu.regs.c ∧ t.cpu.regs.d = s.cpu.regs.d ∧
    t.cpu.regs.e = s.cpu.regs.e ∧ t.cpu.regs.h = s.cpu.regs.h ∧ t.cpu.regs.l = s.cpu.regs.l ∧
    t.cpu.pc = s.cpu.pc ∧ t.cpu.sp = s.cpu.sp ∧ t.cpu.run = s.cpu.run ∧ t.cart = s.cart ∧
    t.commands = s.commands ∧ t.port = s.port

/-- R103: ADD A,B, its byte, its whole effect, twice in a row, and the rule's example. -/
def Obligations.AddABWritesSumAndFlags : Prop :=
  encode .addAB = 0x80 ∧ decode 0x80 = .instr .addAB ∧ op6Field 0x80 = 0b100000 ∧ tgtField 0x80 = 0 ∧
  AddsToAccumulator .addAB .b ∧
  (∀ s : State, ∃ t u, exec .addAB s = .next t ∧ exec .addAB t = .next u ∧
    (u.reg .a).toNat = ((s.reg .a).toNat + 2 * (s.reg .b).toNat) % 256) ∧
  ∀ s : State, s.reg .a = 0x3A → s.reg .b = 0xC6 →
    ∃ t, exec .addAB s = .next t ∧ t.reg .a = 0x00 ∧ t.reg .f = 0xB0 ∧ t.reg .b = 0xC6

/-- R104: ADD A,C, its byte, its whole effect, and the source's dispatch example. -/
def Obligations.AddACWritesSumAndFlags : Prop :=
  encode .addAC = 0x81 ∧ decode 0x81 = .instr .addAC ∧ op6Field 0x81 = 0b100000 ∧ tgtField 0x81 = 1 ∧
  AddsToAccumulator .addAC .c ∧
  ∀ s : State, s.reg .a = 0x09 → s.reg .c = 0x01 →
    ∃ t, exec .addAC s = .next t ∧ t.reg .a = 0x0A ∧ t.reg .f = 0x00 ∧ t.reg .c = 0x01

/-- R105: ADD A,D, its byte, its whole effect, and the rule's example. -/
def Obligations.AddADWritesSumAndFlags : Prop :=
  encode .addAD = 0x82 ∧ decode 0x82 = .instr .addAD ∧ op6Field 0x82 = 0b100000 ∧ tgtField 0x82 = 2 ∧
  AddsToAccumulator .addAD .d ∧
  ∀ s : State, s.reg .a = 0xFF → s.reg .d = 0xFF →
    ∃ t, exec .addAD s = .next t ∧ t.reg .a = 0xFE ∧ t.reg .f = 0x30 ∧ t.reg .d = 0xFF

/-- R106: ADD A,E, its byte, its whole effect, and the rule's example. -/
def Obligations.AddAEWritesSumAndFlags : Prop :=
  encode .addAE = 0x83 ∧ decode 0x83 = .instr .addAE ∧ op6Field 0x83 = 0b100000 ∧ tgtField 0x83 = 3 ∧
  AddsToAccumulator .addAE .e ∧
  ∀ s : State, s.reg .a = 0x80 → s.reg .e = 0x80 →
    ∃ t, exec .addAE s = .next t ∧ t.reg .a = 0x00 ∧ t.reg .f = 0x90 ∧ t.reg .e = 0x80

/-- The frame of addAB, addAC, addAD and addAE, which store nothing: every register but `A` and `F`, every special
register, the Cartridge Reader, and every byte of the buffer are unchanged. -/
def Obligations.AddFamilyFrame : Prop :=
  ∀ (i : Instr) (s t : State), exec i s = .next t →
    (∀ x, x ≠ .a → x ≠ .f → t.reg x = s.reg x) ∧ t.cpu.pc = s.cpu.pc ∧ t.cpu.sp = s.cpu.sp ∧
    t.cpu.run = s.cpu.run ∧ t.cart = s.cart ∧ (∀ a, t.cart.content.byte? a = s.cart.content.byte? a) ∧
    t.commands = s.commands ∧ t.port = s.port

/-- The result and the flags of an ADD depend on `A` and the target alone: no instruction reads `F`, `H`, `L`, `pc`,
`sp`, another register or the buffer (41_cpu_add.md section 5, which the spec marks derived). -/
def Obligations.AddReadsOnlyItsTwoOperands : Prop :=
  ∀ (i : Instr) (s u : State), s.reg .a = u.reg .a → s.reg (regOfTarget i.target) = u.reg (regOfTarget i.target) →
    ∃ s' u', exec i s = .next s' ∧ exec i u = .next u' ∧ s'.reg .a = u'.reg .a ∧ s'.reg .f = u'.reg .f

/-- The primitive `add` as a host command: it writes `F` alone and returns the sum. That the flags go to `F`, and
that a host may issue it, are the spec's own decisions (D8, D30; log entry 8). -/
def Obligations.AddPrimitiveWritesOnlyFlags : Prop :=
  ∀ (v : Byte) (s : State), ∃ (sum : Byte) (t : State), runCommand (.add v) s = .next t ∧
    t.port = some (.ok (.byte sum)) ∧ sum.toNat = ((s.reg .a).toNat + v.toNat) % 256 ∧
    byteToFlags (t.reg .f) =
      { zero := decide (sum = 0), subtract := false
        halfCarry := decide ((s.reg .a).toNat % 16 + v.toNat % 16 > 0xF)
        carry := decide ((s.reg .a).toNat + v.toNat > 0xFF) } ∧
    (∀ x, x ≠ .f → t.reg x = s.reg x) ∧ t.cpu.pc = s.cpu.pc ∧ t.cpu.sp = s.cpu.sp ∧ t.cpu.run = s.cpu.run ∧
    t.cart = s.cart ∧ t.commands = s.commands

/-- The laws of 8-bit addition (41_cpu_add.md section 5, which the spec marks derived), with the two that a circuit
rests on: half-carry is bit 4 of `a`, `v` and the result combined, and the operands may be exchanged. -/
def Obligations.AdditionLaws : Prop :=
  ∀ a v : Byte,
    (addResult a v).toNat + 256 * (if (addFlags a v).carry then 1 else 0) = a.toNat + v.toNat ∧
    (addFlags a v).halfCarry = (a ^^^ v ^^^ addResult a v).getLsbD 4 ∧
    (addFlags a v).zero = decide (addResult a v = 0) ∧ (addFlags a v).subtract = false ∧
    addResult a v = addResult v a ∧ addFlags a v = addFlags v a

/-- The bytes that `F` holds after an `add` (41_cpu_add.md R101, which the spec marks derived). -/
def Sys2Proof.Machine.addFlagBytes : List Byte := [0x00, 0x10, 0x20, 0x30, 0x80, 0x90, 0xB0]

/-- After any `add`, of an instruction and of the host command, `r[F]` is one of the seven bytes, and each of them
occurs for every instruction and for the command; 0xA0 does not occur (41_cpu_add.md R101, which the spec marks
derived). -/
def Obligations.AddFlagBytesAreTheSeven : Prop :=
  (∀ (i : Instr) (s : State), ∃ t, exec i s = .next t ∧ t.reg .f ∈ addFlagBytes) ∧
  (∀ (v : Byte) (s : State), ∃ t, runCommand (.add v) s = .next t ∧ t.reg .f ∈ addFlagBytes) ∧
  (∀ a v : Byte, flagsToByte (addFlags a v) ∈ addFlagBytes) ∧
  (0xA0 : Byte) ∉ addFlagBytes ∧
  ∀ x ∈ addFlagBytes,
    (∀ i : Instr, ∃ s t, exec i s = .next t ∧ t.reg .f = x) ∧
    ∃ v s t, runCommand (.add v) s = .next t ∧ t.reg .f = x

/-! ## Decode and execute_cycle -/

/-- Words written out bit by bit from format OP8. The pairing of codes and registers is the spec's own decision (D7). -/
def Obligations.DecodeReadsTheWrittenWords : Prop :=
  decode 0b10000000 = .instr (.add .b) ∧ decode 0b10000001 = .instr (.add .c) ∧
  decode 0b10000010 = .instr (.add .d) ∧ decode 0b10000011 = .instr (.add .e) ∧
  decode 0b01111111 = .unknown 0x7F ∧ decode 0b10000100 = .unknown 0x84 ∧ decode 0b11000000 = .unknown 0xC0 ∧
  decode 0b00000000 = .unknown 0x00 ∧ decode 0b11001011 = .unknown 0xCB ∧ decode 0b11111111 = .unknown 0xFF

/-- Every instruction is read back from its byte, every byte that decodes is that instruction's, and every other byte
is Unknown with itself. -/
def Obligations.DecodeAndEncodeAgree : Prop :=
  (∀ i : Instr, i.wf = true ∧ decode (encode i) = .instr i) ∧
  (∀ (op : Byte) (i : Instr), decode op = .instr i → op = encode i) ∧
  (∀ op : Byte, (op.toNat < 0x80 ∨ 0x83 < op.toNat) ↔ decode op = .unknown op) ∧
  (∀ op x : Byte, decode op = .unknown x → x = op)

/-- R65, R107, R153: any other opcode decodes to Unknown and raises UnknownInstruction with its byte, sets `run`,
changes nothing else, and the core takes the next command. -/
def Obligations.UnknownOpcodeIsReported : Prop :=
  (∀ (op : Byte) (s : State) (cs : List Command), op.toNat < 0x80 ∨ 0x83 < op.toNat →
    s.commands = .executeCycle op :: cs → decode op = .unknown op ∧
    step s = .next { s with
      cpu := { s.cpu with run := .executing }, commands := cs, port := some (.raised (.unknownInstruction op)) }) ∧
  ∀ (s : State) (cs : List Command), s.commands = .executeCycle 0x84 :: cs → s.reg .a = 0x09 → s.reg .f = 0x00 →
    ∃ t, step s = .next t ∧ t.port = some (.raised (.unknownInstruction 0x84)) ∧ t.reg .a = 0x09 ∧ t.reg .f = 0x00

/-- A step whose oldest command is `execute_cycle` of a byte that decodes to an instruction is `exec` of it, on the
state with that command taken and `run` executing, with status OK after it; the typed form is the same command (the
spec's own decision D6); no program counter moves. -/
def Obligations.StepRunsTheDecodedInstruction : Prop :=
  ∀ (s : State) (op : Byte) (i : Instr) (cs : List Command), decode op = .instr i →
    s.commands = .executeCycle op :: cs →
    ∃ t, exec i { s with cpu := { s.cpu with run := .executing }, commands := cs, port := none } = .next t ∧
      step s = .next { t with port := some (.ok .none) } ∧
      step { s with commands := .executeTyped i :: cs } = step s ∧
      t.cpu.run = .executing ∧ t.commands = cs ∧ t.cpu.pc = s.cpu.pc ∧ t.cpu.sp = s.cpu.sp

/-- The step after an instruction is placed runs exactly it; what was waiting still waits (log entry 1). -/
def Obligations.PlacedWordRunsNext : Prop :=
  ∀ (s : State) (nbits w : Nat) (i : Instr), decodeTableWord nbits w = some i →
    ∃ t, exec i { s with cpu := { s.cpu with run := .executing }, port := none } = .next t ∧
      step (s.withFetchWord nbits w) = .next { t with port := some (.ok .none) }

/-- With no command waiting, a step changes nothing and no response stands: the model's choice (log entries 2, 13). -/
def Obligations.StepWithoutCommandWaits : Prop :=
  ∀ s : State, s.commands = [] → step s = .next { s with port := none }

/-! ## Cartridge Reader -/

/-- A load of a full image, before any other: the buffer is the image, the five cached fields are its bytes, and the
CPU Core is untouched. The limits are the spec's own decisions (D16, D17, D19). -/
def Obligations.LoadStoresTheImage : Prop :=
  ∀ (s : State) (bytes : List Byte) (cs : List Command), s.commands = .load bytes :: cs →
    s.cart.loaded = false → 0x150 ≤ bytes.length → bytes.length ≤ Config.maxLen →
    ∃ t, step s = .next t ∧ t.cpu = s.cpu ∧ t.commands = cs ∧ t.port = some (.ok .none) ∧
      t.cart.loaded = true ∧ t.cart.content.len = bytes.length ∧ t.cart.content.wf = true ∧
      (∀ i, t.cart.content.byte? i = bytes[i]?) ∧ t.cart.cTitle.toList = (bytes.drop 0x134).take 15 ∧
      some t.cart.cType = bytes[0x147]? ∧ some t.cart.cRom = bytes[0x148]? ∧ some t.cart.cRam = bytes[0x149]? ∧
      some t.cart.cLic = bytes[0x14B]?

/-- R154: a load of fewer than 0x150 bytes records the length, changes no state, and a later load of a full image
succeeds. -/
def Obligations.ShortImageIsTruncatedHeader : Prop :=
  ∀ (s : State) (bytes : List Byte) (cs : List Command), s.commands = .load bytes :: cs →
    s.cart.loaded = false → bytes.length < 0x150 →
    step s = .next { s with commands := cs, port := some (.raised (.truncatedHeader bytes.length)) } ∧
    ∀ (image : List Byte) (ds : List Command), cs = .load image :: ds → 0x150 ≤ image.length →
      image.length ≤ Config.maxLen →
      ∃ t, step { s with commands := cs, port := some (.raised (.truncatedHeader bytes.length)) } = .next t ∧
        t.cart.loaded = true ∧ t.port = some (.ok .none)

/-- A second load of an image of at most `MAX_LEN` bytes, also of one that is too short, is refused with AlreadyLoaded
and changes no state: the spec's own decisions (D17, D32). A longer image is outside the operand's domain and is
refused before this test, which is the model's choice (log entry 5). -/
def Obligations.SecondLoadIsAlreadyLoaded : Prop :=
  ∀ (s : State) (bytes : List Byte) (cs : List Command), s.commands = .load bytes :: cs →
    s.cart.loaded = true → bytes.length ≤ Config.maxLen →
    step s = .next { s with commands := cs, port := some (.raised .alreadyLoaded) }

/-- Every accessor before a load raises NotLoaded, whatever its operand, and changes no state: the spec's own
decisions (D18, D32). -/
def Obligations.AccessorBeforeLoadIsNotLoaded : Prop :=
  ∀ (s : State) (c : Command) (cs : List Command), s.commands = c :: cs → c.isAccessor = true →
    s.cart.loaded = false → step s = .next { s with commands := cs, port := some (.raised .notLoaded) }

/-- R137: an accessor writes no state and answers from the Cartridge Reader's state alone, so it may be repeated and
reordered, and an exception leaves the reader as it was. Every state of the reader that a run reaches is meant. -/
def Obligations.AccessorsArePure : Prop :=
  ∀ (c : Command) (r : CartridgeReader), c.isAccessor = true → r.Inv →
    ∃ p : Response, ∀ s : State, s.cart = r → runCommand c s = .next { s with port := some p }

/-- R26: no command but a successful load and reset writes the Cartridge Reader. -/
def Obligations.BufferIsNeverMutated : Prop :=
  ∀ (s t : State) (c : Command) (cs : List Command), s.commands = c :: cs → step s = .next t →
    t.cart = s.cart ∨ ((c = .reset ∨ c = .resetCartridge) ∧ t.cart = CartridgeReader.new) ∨
    (∃ bytes, c = .load bytes ∧ s.cart.loaded = false ∧ t.port = some (.ok .none) ∧ t.cart.loaded = true)

/-- `read_section` of each tag answers the bytes of its row of the header map; tags 10 to 15 raise InvalidSectionTag.
The tag numbers are the spec's own decision (D20). -/
def Obligations.ReadSectionAnswersTheHeaderMap : Prop :=
  ∀ (s : State) (image : List Byte), s.HoldsImage image →
    (∀ row ∈ ([(0, 0x100, 0x103), (1, 0x104, 0x133), (2, 0x134, 0x142), (3, 0x146, 0x146), (4, 0x147, 0x147),
        (5, 0x148, 0x148), (6, 0x149, 0x149), (7, 0x14A, 0x14A), (8, 0x14B, 0x14B), (9, 0x14D, 0x14D)] :
        List (Nat × Nat × Nat)),
      runCommand (.readSection (BitVec.ofNat 4 row.1)) s = .next { s with
        port := some (.ok (.bytes ((image.drop row.2.1).take (row.2.2 - row.2.1 + 1)))) }) ∧
    ∀ tag : BitVec 4, 9 < tag.toNat →
      runCommand (.readSection tag) s = .next { s with port := some (.raised (.invalidSectionTag tag)) }

/-- The raw code accessors give the cached bytes, which are the image's (42_cartridge_header.md section 2; the names
are the spec's own). -/
def Obligations.RawCodesAreTheImagesBytes : Prop :=
  ∀ (s : State) (image : List Byte), s.HoldsImage image → ∃ rom ram type lic dest : Byte,
    image[0x148]? = some rom ∧ image[0x149]? = some ram ∧ image[0x147]? = some type ∧ image[0x14B]? = some lic ∧
    image[0x14A]? = some dest ∧
    runCommand .romSizeCode s = .next { s with port := some (.ok (.byte rom)) } ∧
    runCommand .ramSizeCode s = .next { s with port := some (.ok (.byte ram)) } ∧
    runCommand .cartridgeTypeCode s = .next { s with port := some (.ok (.byte type)) } ∧
    runCommand .licCodeRaw s = .next { s with port := some (.ok (.byte lic)) } ∧
    runCommand (.readSection 7) s = .next { s with port := some (.ok (.bytes [dest])) }

/-- R124: `title` answers the first `k` bytes of the cached title, `k` the largest place after a byte other than
0x00; an inner 0x00 is kept; before a load it raises NotLoaded; it writes no state. -/
def Obligations.TitleDropsTrailingZeros : Prop :=
  (∀ s : State, s.cart.loaded = false → runCommand .title s = .next { s with port := some (.raised .notLoaded) }) ∧
  (∀ s : State, s.cart.loaded = true → ∃ k : Nat, k ≤ 15 ∧
    runCommand .title s = .next { s with port := some (.ok (.bytes (s.cart.cTitle.toList.take k))) } ∧
    (∀ j : Fin 15, k ≤ j.val → s.cart.cTitle[j] = 0x00) ∧
    (∀ j : Fin 15, j.val + 1 = k → s.cart.cTitle[j] ≠ 0x00)) ∧
  trimTitle [0x43, 0x50, 0x55, 0x5F, 0x49, 0x4E, 0x53, 0x54, 0x52, 0x53, 0, 0, 0, 0, 0] =
    [0x43, 0x50, 0x55, 0x5F, 0x49, 0x4E, 0x53, 0x54, 0x52, 0x53]

/-- `rom_size` is exactly `32 * 2^code` for codes 0 to 26 and raises UnsupportedRomSize above: the limit is the spec's
own decision (D22). -/
def Obligations.RomSizeIsExactOrUnsupported : Prop :=
  ∀ s : State, s.cart.loaded = true →
    (s.cart.cRom.toNat ≤ 26 → ∃ kb : BitVec 32, kb.toNat = 32 * 2 ^ s.cart.cRom.toNat ∧
      runCommand .romSize s = .next { s with port := some (.ok (.romKilobytes kb)) }) ∧
    (26 < s.cart.cRom.toNat →
      runCommand .romSize s = .next { s with port := some (.raised (.unsupportedRomSize s.cart.cRom)) })

/-- R129: `ram_size` by its table, UnsupportedRamSize for codes 4 to 255, NotLoaded before a load; it writes no state. -/
def Obligations.RamSizeFollowsItsTable : Prop :=
  (∀ s : State, s.cart.loaded = false → runCommand .ramSize s = .next { s with port := some (.raised .notLoaded) }) ∧
  (∀ row ∈ ([(0, 0), (1, 2), (2, 8), (3, 32)] : List (Byte × Byte)), ∀ s : State,
    s.cart.loaded = true → s.cart.cRam = row.1 →
    runCommand .ramSize s = .next { s with port := some (.ok (.ramKilobytes row.2)) }) ∧
  ∀ s : State, s.cart.loaded = true → 3 < s.cart.cRam.toNat →
    runCommand .ramSize s = .next { s with port := some (.raised (.unsupportedRamSize s.cart.cRam)) }

/-- The three table accessors answer their table's name or raise Unsupported with the byte, whatever the tables hold;
the tables have their least content. That they are parameters is the spec's own decision (D24; log entry 4). -/
def Obligations.TableAccessorsFollowTheirTables : Prop :=
  (∃ name, Config.cartTypeTable 0x01 = some name) ∧ (∃ k, Config.licTable k = some .noLicense) ∧
  (∃ k, Config.destTable k = some .japan) ∧
  ∀ (s : State) (image : List Byte) (type lic dest : Byte), s.HoldsImage image →
    image[0x147]? = some type → image[0x14B]? = some lic → image[0x14A]? = some dest →
    runCommand .cartridgeType s = .next { s with port := some (match Config.cartTypeTable type with
      | some name => .ok (.cartridgeType name)
      | none => .raised (.unsupportedCartridgeType type)) } ∧
    runCommand .licCode s = .next { s with port := some (match Config.licTable lic with
      | some name => .ok (.licensee name)
      | none => .raised (.unsupportedLicenseCode lic)) } ∧
    runCommand .destinationCode s = .next { s with port := some (match Config.destTable dest with
      | some name => .ok (.region name)
      | none => .raised (.unsupportedDestinationCode dest)) }

/-- R133: `checksum` answers the byte at 0x14D, NotLoaded before a load; it writes no state. -/
def Obligations.ChecksumAnswersTheStoredByte : Prop :=
  (∀ s : State, s.cart.loaded = false → runCommand .checksum s = .next { s with port := some (.raised .notLoaded) }) ∧
  ∀ (s : State) (image : List Byte), s.HoldsImage image → ∃ v : Byte, image[0x14D]? = some v ∧
    runCommand .checksum s = .next { s with port := some (.ok (.byte v)) }

/-- The closed form of the running checksum: with `S` the sum of the 25 window bytes, the 16-bit accumulator is
`-(S + 25)` and the result `231 - S` (42_cartridge_header.md section 4, which the spec marks derived). -/
def Obligations.CalculatedChecksumClosedForm : Prop :=
  ∀ (s : State) (image : List Byte), s.HoldsImage image → ∃ (x : Word16) (v : Byte),
    x = checksumAccumulator ((image.drop 0x134).take 25) ∧
    (x.toNat : Int) = (-(((((image.drop 0x134).take 25).map BitVec.toNat).sum : Int) + 25)) % 65536 ∧
    (v.toNat : Int) = (231 - ((((image.drop 0x134).take 25).map BitVec.toNat).sum : Int)) % 256 ∧
    runCommand .calculateChecksum s = .next { s with port := some (.ok (.byte v)) }

/-- `verify_checksum` answers the stored byte, the byte `calculate_checksum` answers, and whether they are equal; a
mismatch is a result. The operation's name is the spec's own decision (D25). -/
def Obligations.VerifyComparesStoredAndComputed : Prop :=
  ∀ (s : State) (image : List Byte), s.HoldsImage image → ∃ stored computed : Byte,
    image[0x14D]? = some stored ∧
    runCommand .calculateChecksum s = .next { s with port := some (.ok (.byte computed)) } ∧
    runCommand .verifyChecksum s =
      .next { s with port := some (.ok (.verification stored computed (decide (stored = computed)))) }

/-- The detection law: one byte changed inside the window moves the computed checksum by exactly the difference, so an
image that verified no longer does (42_cartridge_header.md section 4, which the spec marks derived). -/
def Obligations.OneChangedWindowByteIsDetected : Prop :=
  ∀ (s u : State) (image : List Byte) (i : Nat) (old new stored computed : Byte) (ok : Bool),
    s.HoldsImage image → u.HoldsImage (image.set i new) → 0x134 ≤ i → i ≤ 0x14C → image[i]? = some old → new ≠ old →
    runCommand .verifyChecksum s = .next { s with port := some (.ok (.verification stored computed ok)) } →
    ∃ (computed' : Byte) (ok' : Bool),
      runCommand .verifyChecksum u = .next { u with port := some (.ok (.verification stored computed' ok')) } ∧
      computed' = computed + (old - new) ∧ computed' ≠ computed ∧ (ok = true → ok' = false)

/-- `MemRead(addr, n)` is `n` single-byte reads at ascending offsets and answers exactly when all of them lie inside
the buffer; a byte at or beyond `len` never has a value. -/
def Obligations.MemReadIsSingleByteReads : Prop :=
  (∀ (m : Memory) (addr n : Nat) (v : Vector Byte n), m.read addr n = some v ↔
    (addr + n ≤ m.len ∧ ∀ k : Fin n, m.byte? (addr + k.val) = some v[k])) ∧
  ∀ (m : Memory) (i : Nat), m.byte? i = none ↔ m.len ≤ i

/-! ## The whole block -/

/-- The invariant holds after reset. -/
def Obligations.InvariantHoldsAtReset : Prop := State.reset.Inv

/-- Every step keeps the invariant, from every state that has it: bits 3 to 0 of `F` are zero, `pc` and `sp` are zero,
the buffer is canonical, empty or of a legal length, and the cache agrees with it. The masking, the idle `pc` and the
limits are the spec's own decisions (D3, D9, D16, D17). -/
def Obligations.EveryStepKeepsTheInvariant : Prop :=
  ∀ s t : State, s.Inv → step s = .next t → t.Inv

/-- Every command completes, with OK or an exception: from a state with the invariant whose oldest command is within
its operands' domain, a step neither faults nor refuses and answers on the outputs (the spec's own decision D28). The
three resets are the exception: they leave no response there, which is the model's choice (log entries 2, 10). -/
def Obligations.EveryCommandCompletes : Prop :=
  ∀ (s : State) (c : Command) (cs : List Command), s.Inv → s.commands = c :: cs → c.wf = true →
    ∃ t, step s = .next t ∧ t.commands = cs ∧
      (c.isReset = true → t.port = none) ∧
      (c.isReset = false → (∃ r, t.port = some (.ok r)) ∨ ∃ e, t.port = some (.raised e))

/-- A load above `MAX_LEN` is the only command without a meaning: the model's choice (log entry 5). -/
def Obligations.OnlyOverlongLoadIsRefused : Prop :=
  ∀ (c : Command) (s : State) (r : Refusal), runCommand c s = .refused r ↔
    ∃ bytes, c = .load bytes ∧ Config.maxLen < bytes.length ∧ r = .imageTooLong bytes.length

/-- No terminal state: any number of steps, from any state with the invariant and commands within their domains,
arrives at a state with the invariant, having run that many of the waiting commands. -/
def Obligations.NoRunEverStops : Prop :=
  ∀ (k : Nat) (s : State), s.Inv → s.CommandsWf →
    ∃ t, Sys2Proof.core.run k s = .next t ∧ t.Inv ∧ t.CommandsWf ∧ t.commands = s.commands.drop k

/-- A list of instructions, issued one byte a command, leaves in `A` the sum of the first `A` and of every operand
modulo 256, and changes no register but `A` and `F`, nor `pc`, `sp` or the Cartridge Reader. -/
def Obligations.InstructionListSumsItsOperands : Prop :=
  ∀ (prog : List Instr) (s : State), s.commands = programCommands prog →
    ∃ t, Sys2Proof.core.run prog.length s = .next t ∧ t.commands = [] ∧
      (t.reg .a).toNat =
        ((s.reg .a).toNat + (prog.map fun i => (s.reg (regOfTarget i.target)).toNat).sum) % 256 ∧
      (∀ x, x ≠ .a → x ≠ .f → t.reg x = s.reg x) ∧ t.cpu.pc = s.cpu.pc ∧ t.cpu.sp = s.cpu.sp ∧ t.cart = s.cart

/-- A stream of opcode bytes runs clean exactly when every byte is one of the four instructions'. -/
def Obligations.StreamIsCleanExactlyOnTheFourOpcodes : Prop :=
  ∀ (ops : List Byte) (s : State), s.commands = ops.map .executeCycle →
    (cleanRun ops.length s = true ↔ ∀ op ∈ ops, 0x80 ≤ op.toNat ∧ op.toNat ≤ 0x83)

/-- Every exception is precise: a command that raised one changed nothing, but that `execute_cycle` set `run`; no
register, `pc`, `sp` or byte moved (60_exceptions.md sections 1 and 4, the spec's own decision D13). -/
def Obligations.ExceptionsChangeNothingButRun : Prop :=
  ∀ (s t : State) (c : Command) (cs : List Command) (e : Exception), s.commands = c :: cs → step s = .next t →
    t.port = some (.raised e) →
    t = { s with commands := cs, port := some (.raised e) } ∨
    ∃ op, c = .executeCycle op ∧ e = .unknownInstruction op ∧
      t = { s with cpu := { s.cpu with run := .executing }, commands := cs, port := some (.raised e) }

/-- `run` becomes executing at every `execute_cycle` and idle again only by reset (the spec's own decision D10). -/
def Obligations.RunStateLeavesExecutingOnlyByReset : Prop :=
  ∀ (s t : State) (c : Command) (cs : List Command), s.commands = c :: cs → step s = .next t →
    (((∃ op, c = .executeCycle op) ∨ ∃ i, c = .executeTyped i) → t.cpu.run = .executing) ∧
    (s.cpu.run = .executing → t.cpu.run = .idle → c = .reset ∨ c = .resetCpu)

/-- No command reads `run`: two states that differ in it alone give states that differ in it alone. -/
def Obligations.RunStateChangesNoResult : Prop :=
  ∀ (s t : State) (r : RunState), step s = .next t →
    ∃ r', step (s.setRun r) = .next (t.setRun r')

/-- The outputs of a command are not held: the next step reads nothing of them (the model's `port`, log entry 2). -/
def Obligations.OutputsAreNotHeldBetweenCommands : Prop :=
  ∀ (s : State) (p : Option Response), step { s with port := p } = step s

/-- A command of the CPU Core and a command of the Cartridge Reader commute: each answers the same in both orders, and
both orders end in the same state of both components (20_memory.md section 4, which the spec marks derived). -/
def Obligations.CpuAndCartridgeCommandsCommute : Prop :=
  ∀ (s : State) (c d : Command), s.cart.Inv → c.toCpu = true → d.toCart = true → d.wf = true →
    ∃ s1 s12 s2 s21, runCommand c s = .next s1 ∧ runCommand d s1 = .next s12 ∧
      runCommand d s = .next s2 ∧ runCommand c s2 = .next s21 ∧
      s12.cpu = s21.cpu ∧ s12.cart = s21.cart ∧ s1.port = s21.port ∧ s2.port = s12.port ∧
      s1.cart = s.cart ∧ s2.cpu = s.cpu

/-- The two components do not interfere: after any mix of commands, the CPU Core is as if the commands of the
Cartridge Reader had not been issued, and the Cartridge Reader as if those of the CPU Core had not. -/
def Obligations.ComponentsDoNotInterfere : Prop :=
  ∀ s : State, s.Inv → s.CommandsWf →
    ∃ t u v, Sys2Proof.core.run s.commands.length s = .next t ∧
      Sys2Proof.core.run (s.commands.filter fun c => !c.toCart).length
        { s with commands := s.commands.filter fun c => !c.toCart } = .next u ∧
      Sys2Proof.core.run (s.commands.filter fun c => !c.toCpu).length
        { s with commands := s.commands.filter fun c => !c.toCpu } = .next v ∧
      t.cpu = u.cpu ∧ t.cart = v.cart

/-! ## The boundary -/

/-- The table of 60_exceptions.md R152: the code and the information of OK and of each exception, and the outputs a
host reads after OK, after an exception, and after a step that answered nothing. The codes are the spec's own decision
(D12); that the outputs are then absent is the model's choice (log entry 2). -/
def Obligations.StatusCodesFollowTheTable : Prop :=
  (∀ r : Result, (Response.ok r).status = 0 ∧ (Response.ok r).info = none) ∧
  (∀ op : Byte, (Exception.unknownInstruction op).code = 1 ∧ (Exception.unknownInstruction op).info = some op.toNat) ∧
  (∀ n : Nat, (Exception.truncatedHeader n).code = 2 ∧ (Exception.truncatedHeader n).info = some n) ∧
  (Exception.alreadyLoaded.code = 3 ∧ Exception.alreadyLoaded.info = none) ∧
  (Exception.notLoaded.code = 4 ∧ Exception.notLoaded.info = none) ∧
  (∀ t : BitVec 4, (Exception.invalidSectionTag t).code = 5 ∧ (Exception.invalidSectionTag t).info = some t.toNat) ∧
  (∀ b : Byte,
    ((Exception.unsupportedRomSize b).code = 6 ∧ (Exception.unsupportedRomSize b).info = some b.toNat) ∧
    ((Exception.unsupportedRamSize b).code = 7 ∧ (Exception.unsupportedRamSize b).info = some b.toNat) ∧
    ((Exception.unsupportedCartridgeType b).code = 8 ∧ (Exception.unsupportedCartridgeType b).info = some b.toNat) ∧
    ((Exception.unsupportedLicenseCode b).code = 9 ∧ (Exception.unsupportedLicenseCode b).info = some b.toNat) ∧
    ((Exception.unsupportedDestinationCode b).code = 10 ∧
      (Exception.unsupportedDestinationCode b).info = some b.toNat)) ∧
  ∀ s : State, s.outputs.pc = s.cpu.pc ∧ s.outputs.sp = s.cpu.sp ∧ s.outputs.run = s.cpu.run.code ∧
    (∀ r, s.port = some (.ok r) →
      s.outputs.status = some 0 ∧ s.outputs.info = none ∧ s.outputs.result = some r) ∧
    (∀ e, s.port = some (.raised e) →
      s.outputs.status = some e.code ∧ s.outputs.info = e.info ∧ s.outputs.result = none) ∧
    (s.port = none → s.outputs.status = none ∧ s.outputs.info = none ∧ s.outputs.result = none)

/-- The host's `read_file`: a load of the file's bytes and nothing else; a host-level condition issues no load and
leaves the block as it was (the spec's own decision D15). -/
def Obligations.HostConditionsNeverReachTheBlock : Prop :=
  ∀ s : State,
    hostReadFile .noPath s = (some .invalidInvocation, s) ∧ hostReadFile (.path none) s = (some .fileNotFound, s) ∧
    ∀ bytes : List Byte,
      hostReadFile (.path (some bytes)) s = (none, { s with commands := s.commands ++ [.load bytes] })

/-- A program written out is read back: every line with an instruction of its own or none, its own spaces, and its own
comment or none, so lines that hold only a comment among them. The notation is the spec's own decision (D27); the
spaces and the lines without an instruction are the model's choice (log entry 11). -/
def Obligations.WrittenProgramIsReadBack : Prop :=
  ∀ lines : List SourceLine, parseProgram (lines.map SourceLine.text) = some (lines.filterMap SourceLine.instr)
end

