-- ==== Sys2Proof/Laws/Assembler.lean ====
section
/-! SUPPORT. What reading one line answers, said once for every line the notation can write. -/

namespace Sys2Proof.Machine

@[simp] theorem dropTrailingSpaces_spaces (n : Nat) : dropTrailingSpaces (List.replicate n ' ') = [] := by
  induction n with
  | zero => rfl
  | succ n ih => simp [List.replicate_succ, dropTrailingSpaces, ih]

@[simp] theorem dropTrailingSpaces_instrText (i : Instr) (n : Nat) :
    dropTrailingSpaces (instrText i ++ List.replicate n ' ') = instrText i := by
  cases i <;> simp [instrText, targetLetter, Instr.target, dropTrailingSpaces]

@[simp] theorem instrOfText_instrText (i : Instr) : instrOfText (instrText i) = some i := by
  cases i <;> decide

theorem instrText_ne_nil (i : Instr) : instrText i ≠ [] := by simp [instrText]

/-- Text without a `;` is what is left of it, with a comment after it or without one. -/
theorem stripComment_append (text : List Char) (h : ';' ∉ text) (comment : Option (List Char)) :
    stripComment (text ++ (comment.map fun rest => ';' :: rest).getD []) = text := by
  induction text with
  | nil => cases comment <;> simp [stripComment]
  | cons ch rest ih =>
    obtain ⟨h1, h2⟩ : ';' ≠ ch ∧ ';' ∉ rest := by simpa using h
    simp [stripComment, Ne.symm h1, ih h2]

theorem semicolon_not_mem_code (i : Option Instr) (n : Nat) :
    ';' ∉ (i.map instrText).getD [] ++ List.replicate n ' ' := by
  rcases i with _ | i
  · simp
  · cases i <;> simp [instrText, targetLetter, Instr.target]

/-- A written line is read as its instruction, and as none where it has none. -/
theorem parseLine_text (line : SourceLine) : parseLine line.text = some line.instr.toList := by
  obtain ⟨i, n, comment⟩ := line
  simp only [parseLine, SourceLine.text, stripComment_append _ (semicolon_not_mem_code i n)]
  cases i <;> simp [instrText_ne_nil]

end Sys2Proof.Machine
end

