-- ==== Sys2Proof/Laws/State.lean ====
section
/-! SUPPORT. One lemma for each field of each update of State, so that no proof unfolds a record update. -/

namespace Sys2Proof.Machine

variable (s : State)

@[simp] theorem State.setCpu_cpu (c : CpuCore) : (s.setCpu c).cpu = c := rfl
@[simp] theorem State.setCpu_cart (c : CpuCore) : (s.setCpu c).cart = s.cart := rfl
@[simp] theorem State.setCpu_commands (c : CpuCore) : (s.setCpu c).commands = s.commands := rfl
@[simp] theorem State.setCpu_port (c : CpuCore) : (s.setCpu c).port = s.port := rfl

@[simp] theorem State.setRegs_cpu_regs (rf : RegisterFile) : (s.setRegs rf).cpu.regs = rf := rfl
@[simp] theorem State.setRegs_cpu_pc (rf : RegisterFile) : (s.setRegs rf).cpu.pc = s.cpu.pc := rfl
@[simp] theorem State.setRegs_cpu_sp (rf : RegisterFile) : (s.setRegs rf).cpu.sp = s.cpu.sp := rfl
@[simp] theorem State.setRegs_cpu_run (rf : RegisterFile) : (s.setRegs rf).cpu.run = s.cpu.run := rfl
@[simp] theorem State.setRegs_cart (rf : RegisterFile) : (s.setRegs rf).cart = s.cart := rfl
@[simp] theorem State.setRegs_commands (rf : RegisterFile) : (s.setRegs rf).commands = s.commands := rfl
@[simp] theorem State.setRegs_port (rf : RegisterFile) : (s.setRegs rf).port = s.port := rfl

@[simp] theorem State.setRun_cpu_regs (r : RunState) : (s.setRun r).cpu.regs = s.cpu.regs := rfl
@[simp] theorem State.setRun_cpu_pc (r : RunState) : (s.setRun r).cpu.pc = s.cpu.pc := rfl
@[simp] theorem State.setRun_cpu_sp (r : RunState) : (s.setRun r).cpu.sp = s.cpu.sp := rfl
@[simp] theorem State.setRun_cpu_run (r : RunState) : (s.setRun r).cpu.run = r := rfl
@[simp] theorem State.setRun_cart (r : RunState) : (s.setRun r).cart = s.cart := rfl
@[simp] theorem State.setRun_commands (r : RunState) : (s.setRun r).commands = s.commands := rfl
@[simp] theorem State.setRun_port (r : RunState) : (s.setRun r).port = s.port := rfl

@[simp] theorem State.setCart_cpu (r : CartridgeReader) : (s.setCart r).cpu = s.cpu := rfl
@[simp] theorem State.setCart_cart (r : CartridgeReader) : (s.setCart r).cart = r := rfl
@[simp] theorem State.setCart_commands (r : CartridgeReader) : (s.setCart r).commands = s.commands := rfl
@[simp] theorem State.setCart_port (r : CartridgeReader) : (s.setCart r).port = s.port := rfl

@[simp] theorem State.setPort_cpu (p : Option Response) : (s.setPort p).cpu = s.cpu := rfl
@[simp] theorem State.setPort_cart (p : Option Response) : (s.setPort p).cart = s.cart := rfl
@[simp] theorem State.setPort_commands (p : Option Response) : (s.setPort p).commands = s.commands := rfl
@[simp] theorem State.setPort_port (p : Option Response) : (s.setPort p).port = p := rfl

@[simp] theorem State.setCommands_cpu (cs : List Command) : (s.setCommands cs).cpu = s.cpu := rfl
@[simp] theorem State.setCommands_cart (cs : List Command) : (s.setCommands cs).cart = s.cart := rfl
@[simp] theorem State.setCommands_commands (cs : List Command) : (s.setCommands cs).commands = cs := rfl
@[simp] theorem State.setCommands_port (cs : List Command) : (s.setCommands cs).port = s.port := rfl

@[simp] theorem State.setReg_cpu_regs (x : Reg) (v : Byte) : (s.setReg x v).cpu.regs = s.cpu.regs.write x v := rfl
@[simp] theorem State.setReg_cpu_pc (x : Reg) (v : Byte) : (s.setReg x v).cpu.pc = s.cpu.pc := rfl
@[simp] theorem State.setReg_cpu_sp (x : Reg) (v : Byte) : (s.setReg x v).cpu.sp = s.cpu.sp := rfl
@[simp] theorem State.setReg_cpu_run (x : Reg) (v : Byte) : (s.setReg x v).cpu.run = s.cpu.run := rfl
@[simp] theorem State.setReg_cart (x : Reg) (v : Byte) : (s.setReg x v).cart = s.cart := rfl
@[simp] theorem State.setReg_commands (x : Reg) (v : Byte) : (s.setReg x v).commands = s.commands := rfl
@[simp] theorem State.setReg_port (x : Reg) (v : Byte) : (s.setReg x v).port = s.port := rfl

@[simp] theorem State.setFlags_cpu_regs (fl : Flags) : (s.setFlags fl).cpu.regs = s.cpu.regs.write .f (flagsToByte fl) := rfl
@[simp] theorem State.setFlags_cpu_pc (fl : Flags) : (s.setFlags fl).cpu.pc = s.cpu.pc := rfl
@[simp] theorem State.setFlags_cpu_sp (fl : Flags) : (s.setFlags fl).cpu.sp = s.cpu.sp := rfl
@[simp] theorem State.setFlags_cpu_run (fl : Flags) : (s.setFlags fl).cpu.run = s.cpu.run := rfl
@[simp] theorem State.setFlags_cart (fl : Flags) : (s.setFlags fl).cart = s.cart := rfl
@[simp] theorem State.setFlags_commands (fl : Flags) : (s.setFlags fl).commands = s.commands := rfl
@[simp] theorem State.setFlags_port (fl : Flags) : (s.setFlags fl).port = s.port := rfl

@[simp] theorem State.setPort_setPort (p q : Option Response) : (s.setPort p).setPort q = s.setPort q := rfl
@[simp] theorem State.setPort_port_self : s.setPort s.port = s := rfl
@[simp] theorem State.setCpu_cpu_self : s.setCpu s.cpu = s := rfl
@[simp] theorem State.setCart_cart_self : s.setCart s.cart = s := rfl
@[simp] theorem State.setCommands_commands_self : s.setCommands s.commands = s := rfl

@[simp] theorem State.reg_setPort (p : Option Response) (x : Reg) : (s.setPort p).reg x = s.reg x := rfl
@[simp] theorem State.reg_setRun (r : RunState) (x : Reg) : (s.setRun r).reg x = s.reg x := rfl
@[simp] theorem State.reg_setCart (r : CartridgeReader) (x : Reg) : (s.setCart r).reg x = s.reg x := rfl
@[simp] theorem State.reg_setCommands (cs : List Command) (x : Reg) : (s.setCommands cs).reg x = s.reg x := rfl

end Sys2Proof.Machine
end

