-- ==== Sys2Proof/Laws/Memory.lean ====
section
/-! SUPPORT. The buffer: the canonical form, which every operation that makes one has, and reading what was loaded. -/

namespace Sys2Proof.Machine

theorem cellsWf_mono {len i j : Nat} (h : i ≤ j) : ∀ cs, cellsWf len j cs = true → cellsWf len i cs = true
  | [], _ => rfl
  | (a, b) :: cs, hw => by
    simp only [cellsWf, Bool.and_eq_true, decide_eq_true_eq] at hw ⊢
    exact ⟨⟨⟨h.trans hw.1.1.1, hw.1.1.2⟩, hw.1.2⟩, hw.2⟩

theorem cellsFrom_wf : ∀ (bs : List Byte) (i : Nat), cellsWf (i + bs.length) i (cellsFrom i bs) = true
  | [], _ => rfl
  | b :: bs, i => by
    have ih := cellsFrom_wf bs (i + 1)
    have hlen : i + (b :: bs).length = i + 1 + bs.length := by simp; omega
    rw [hlen]
    unfold cellsFrom
    split
    · exact cellsWf_mono (Nat.le_succ i) _ ih
    · next hb =>
      simp only [cellsWf, Bool.and_eq_true, decide_eq_true_eq]
      exact ⟨⟨⟨Nat.le_refl i, by omega⟩, hb⟩, ih⟩

/-- The buffer a load makes is in canonical form. -/
theorem Memory.ofBytes_wf (bytes : List Byte) : (Memory.ofBytes bytes).wf = true := by
  have h := cellsFrom_wf bytes 0
  rwa [Nat.zero_add] at h

/-- So is the buffer of reset. -/
theorem Memory.empty_wf : Memory.empty.wf = true := rfl

theorem State.reset_content_wf : State.reset.cart.content.wf = true := rfl

theorem cellAt_cellsFrom_below : ∀ (bs : List Byte) {i j : Nat}, j < i → cellAt (cellsFrom i bs) j = unlistedByte
  | [], _, _, _ => rfl
  | b :: bs, i, j, h => by
    have ih := cellAt_cellsFrom_below bs (i := i + 1) (j := j) (by omega)
    unfold cellsFrom
    split
    · exact ih
    · rw [cellAt, if_neg (by omega), ih]

theorem cellAt_cellsFrom : ∀ (bs : List Byte) (i k : Nat), cellAt (cellsFrom i bs) (i + k) = bs.getD k unlistedByte
  | [], _, _ => rfl
  | b :: bs, i, 0 => by
    unfold cellsFrom
    split
    · next hb => rw [Nat.add_zero, cellAt_cellsFrom_below bs (by omega)]; simp [hb]
    · simp [cellAt]
  | b :: bs, i, k + 1 => by
    have ih := cellAt_cellsFrom bs (i + 1) k
    have hk : i + (k + 1) = i + 1 + k := by omega
    unfold cellsFrom
    split
    · rw [hk, ih]; simp
    · rw [cellAt, if_neg (by omega), hk, ih]; simp

@[simp] theorem Memory.ofBytes_len (bytes : List Byte) : (Memory.ofBytes bytes).len = bytes.length := rfl

/-- Each byte of a loaded image is read back at its offset. -/
theorem cellAt_ofBytes (bytes : List Byte) (i : Nat) :
    cellAt (Memory.ofBytes bytes).cells i = bytes.getD i unlistedByte := by
  have h := cellAt_cellsFrom bytes 0 i
  rwa [Nat.zero_add] at h

/-- A read inside the buffer gives the bytes at its offsets. -/
theorem Memory.read_of_le (m : Memory) {addr n : Nat} (h : addr + n ≤ m.len) :
    m.read addr n = some (Vector.ofFn fun k => cellAt m.cells (addr + k.val)) := if_pos h

/-- A read that passes the end gives nothing. -/
theorem Memory.read_of_lt (m : Memory) {addr n : Nat} (h : m.len < addr + n) : m.read addr n = none :=
  if_neg (by omega)

theorem Memory.byte?_of_lt (m : Memory) {i : Nat} (h : i < m.len) : m.byte? i = some (cellAt m.cells i) := if_pos h

/-- The bytes of a read inside the buffer, as a list. -/
theorem Memory.toList_read (m : Memory) {addr n : Nat} {v : Vector Byte n} (h : m.read addr n = some v) :
    v.toList = (List.range n).map fun k => cellAt m.cells (addr + k) := by
  unfold Memory.read at h
  split at h
  · cases h
    apply List.ext_getElem <;> simp
  · cases h

end Sys2Proof.Machine
end

