-- ==== Sys2Proof/Laws/Registers.lean ====
section
/-! SUPPORT. Reading and writing a register, the flags byte, and what the shared operation of the ADD family does. -/

namespace Sys2Proof.Machine

@[simp] theorem maskF_maskF (v : Byte) : maskF (maskF v) = maskF v := by
  simp only [maskF, BitVec.and_assoc]; rfl

theorem maskF_low_nibble (v : Byte) : maskF v &&& 0x0F = 0 := by
  simp only [maskF, BitVec.and_assoc]
  exact BitVec.and_zero

@[simp] theorem maskF_flagsToByte (fl : Flags) : maskF (flagsToByte fl) = flagsToByte fl := by
  obtain ⟨z, n, h, c⟩ := fl
  revert z n h c; decide

/-- The low nibble of `F` is zero exactly where the mask changes nothing. -/
theorem maskF_eq_self_iff (v : Byte) : maskF v = v ↔ v &&& 0x0F = 0 := by
  have split : v = (v &&& 0xF0) ||| (v &&& 0x0F) := by
    rw [← BitVec.and_or_distrib_left]
    exact (BitVec.and_allOnes).symm
  constructor
  · intro h; rw [← h]; exact maskF_low_nibble v
  · intro h; rw [h] at split; simpa [maskF] using split.symm

/-- What a register reads as after a write of it. -/
theorem RegisterFile.read_write_self (rf : RegisterFile) (x : Reg) (v : Byte) :
    (rf.write x v).read x = if x = .f then maskF v else v := by
  cases x <;> simp [RegisterFile.write, RegisterFile.read]

/-- A write of one register changes no other. -/
theorem RegisterFile.read_write_ne (rf : RegisterFile) {x y : Reg} (v : Byte) (h : y ≠ x) :
    (rf.write x v).read y = rf.read y := by
  cases x <;> cases y <;> first | rfl | exact absurd rfl h

@[simp] theorem RegisterFile.write_f_low (rf : RegisterFile) (v : Byte) : (rf.write .f v).f &&& 0x0F = 0 :=
  maskF_low_nibble v

/-- Every write keeps the low nibble of `F` zero. -/
theorem RegisterFile.write_keeps_f_low (rf : RegisterFile) (x : Reg) (v : Byte) (h : rf.f &&& 0x0F = 0) :
    (rf.write x v).f &&& 0x0F = 0 := by
  cases x <;> first | exact h | exact maskF_low_nibble v

/-- So does a write of a view. -/
theorem RegisterFile.setPair_keeps_f_low (rf : RegisterFile) (p : Pair) (v : Word16) (h : rf.f &&& 0x0F = 0) :
    (rf.setPair p v).f &&& 0x0F = 0 :=
  write_keeps_f_low _ _ _ (write_keeps_f_low _ _ _ h)

/-- The number that two bytes compose: the first-named in bits 15 to 8 (20_memory.md R43). -/
theorem toNat_join (x y : Byte) : (x ++ y : Word16).toNat = 256 * x.toNat + y.toNat := by
  refine (BitVec.toNat_append x y).trans ?_
  rw [← Nat.shiftLeft_add_eq_or_of_lt y.isLt, Nat.shiftLeft_eq]
  omega

theorem toNat_highByte (v : Word16) : (highByte v).toNat = v.toNat / 256 := by
  have h := v.isLt
  simp only [highByte, BitVec.extractLsb'_toNat, Nat.shiftRight_eq_div_pow]
  omega

theorem toNat_lowByte (v : Word16) : (lowByte v).toNat = v.toNat % 256 := by
  simp [lowByte, BitVec.extractLsb'_toNat]

@[simp] theorem highByte_join (x y : Byte) : highByte (x ++ y : Word16) = x := by
  apply BitVec.eq_of_toNat_eq
  have h := y.isLt
  rw [toNat_highByte, toNat_join]
  omega

@[simp] theorem lowByte_join (x y : Byte) : lowByte (x ++ y : Word16) = y := by
  apply BitVec.eq_of_toNat_eq
  have h := y.isLt
  rw [toNat_lowByte, toNat_join]
  omega

@[simp] theorem join_highByte_lowByte (v : Word16) : (highByte v ++ lowByte v : Word16) = v := by
  apply BitVec.eq_of_toNat_eq
  rw [toNat_join, toNat_highByte, toNat_lowByte]
  omega

@[simp] theorem regOfSel_selOfReg (x : Reg) : regOfSel (selOfReg x) = x := by cases x <;> rfl
@[simp] theorem selOfReg_regOfSel (rsel : BitVec 3) : selOfReg (regOfSel rsel) = rsel := by revert rsel; decide
@[simp] theorem pairOfSel_selOfPair (p : Pair) : pairOfSel (selOfPair p) = p := by cases p <;> rfl
@[simp] theorem fieldOfTag_tagOfField (fd : HeaderField) : fieldOfTag (tagOfField fd) = some fd := by cases fd <;> rfl

/-- The Register File after an ADD: `A` and `F`, and nothing else, written from the values before it. -/
def addedRegs (v : Byte) (rf : RegisterFile) : RegisterFile :=
  { rf with a := addResult rf.a v, f := flagsToByte (addFlags rf.a v) }

/-- The whole effect of the shared operation of the ADD family. -/
theorem addToAccumulator_eq (t : ArithmeticTarget) (s : State) :
    addToAccumulator t s = s.setRegs (addedRegs (s.reg (regOfTarget t)) s.cpu.regs) := by
  simp [addToAccumulator, add, addedRegs, State.setReg, State.setFlags, State.setRegs, State.reg,
    RegisterFile.write, RegisterFile.read]

/-- The whole effect of the primitive `add`. -/
theorem add_eq (v : Byte) (s : State) :
    add v s = (addResult s.cpu.regs.a v,
      s.setRegs { s.cpu.regs with f := flagsToByte (addFlags s.cpu.regs.a v) }) := by
  simp [add, State.setReg, State.setFlags, State.setRegs, State.reg, RegisterFile.write, RegisterFile.read]

/-- The whole effect of each instruction: the arms differ in the target alone. -/
theorem exec_eq (i : Instr) (s : State) :
    exec i s = .next (s.setRegs (addedRegs (s.reg (regOfTarget i.target)) s.cpu.regs)) := by
  cases i <;>
    simp [exec, execAddAB, execAddAC, execAddAD, execAddAE, addToAccumulator_eq, Instr.target]

end Sys2Proof.Machine
end

