-- ==== Sys2Proof/Laws/Commands.lean ====
section
/-! SUPPORT. What a command can do, said once: a command of the CPU Core is a function of the CPU Core alone and never
stops; an accessor is a function of the Cartridge Reader alone and writes nothing; a load either writes the whole
Cartridge Reader or nothing. -/

namespace Sys2Proof.Machine

/-! ## The shared operations -/

theorem raise_eq (e : Exception) (s : State) : raise e s = .next (s.setPort (some (.raised e))) := rfl

theorem respond_eq (r : Result) (s : State) : respond r s = .next (s.setPort (some (.ok r))) := rfl

theorem completes_next (s : State) : completes (.next s) = .next (s.setPort (some (.ok .none))) := rfl

theorem afterLoad_unloaded {s : State} (h : s.cart.loaded = false) (k : Answer) : afterLoad s k = raise .notLoaded s := by
  simp [afterLoad, h]

theorem afterLoad_loaded {s : State} (h : s.cart.loaded = true) (k : Answer) : afterLoad s k = k := by
  simp [afterLoad, h]

theorem withBytes_of_le (m : Memory) {addr n : Nat} (h : addr + n ≤ m.len) (k : Vector Byte n → Answer) :
    withBytes m addr n k = k (Vector.ofFn fun j => cellAt m.cells (addr + j.val)) := by
  rw [withBytes, m.read_of_le h]

/-- The bytes a command goes on with, as a list. -/
theorem withBytes_toList (m : Memory) {addr n : Nat} (h : addr + n ≤ m.len) (k : List Byte → Answer) :
    (withBytes m addr n fun v => k v.toList) = k ((List.range n).map fun j => cellAt m.cells (addr + j)) := by
  rw [withBytes, m.read_of_le h]
  exact congrArg k (m.toList_read (m.read_of_le h))

theorem withByte_of_lt (m : Memory) {addr : Nat} (h : addr < m.len) (k : Byte → Answer) :
    withByte m addr k = k (cellAt m.cells addr) := by
  rw [withByte, withBytes_of_le m h]
  simp

/-! ## Commands of the CPU Core -/

/-- What a command of the CPU Core does to it, and what it answers. -/
def cpuEffect (c : Command) (u : CpuCore) : CpuCore × Option Response :=
  match c with
  | .resetCpu => (CpuCore.new, none)
  | .readReg rsel => (u, some (.ok (.byte (u.regs.read (regOfSel rsel)))))
  | .writeReg rsel v => ({ u with regs := u.regs.write (regOfSel rsel) v }, some (.ok .none))
  | .getPair psel => (u, some (.ok (.word (u.regs.getPair (pairOfSel psel)))))
  | .setPair psel v => ({ u with regs := u.regs.setPair (pairOfSel psel) v }, some (.ok .none))
  | .flagsToByte fl => (u, some (.ok (.byte (flagsToByte fl))))
  | .byteToFlags v => (u, some (.ok (.flags (byteToFlags v))))
  | .add v =>
    ({ u with regs := { u.regs with f := flagsToByte (addFlags u.regs.a v) } }, some (.ok (.byte (addResult u.regs.a v))))
  | .executeCycle op =>
    match decode op with
    | .instr i =>
      ({ u with regs := addedRegs (u.regs.read (regOfTarget i.target)) u.regs, run := .executing }, some (.ok .none))
    | .unknown op => ({ u with run := .executing }, some (.raised (.unknownInstruction op)))
  | .executeTyped i =>
    ({ u with regs := addedRegs (u.regs.read (regOfTarget i.target)) u.regs, run := .executing }, some (.ok .none))
  | _ => (u, none)

/-- A command of the CPU Core never stops, reads and writes the CPU Core alone, and answers from it alone. -/
theorem runCommand_cpu {c : Command} (h : c.toCpu = true) (s : State) :
    runCommand c s = .next ((s.setCpu (cpuEffect c s.cpu).1).setPort (cpuEffect c s.cpu).2) := by
  cases c with
  | executeCycle op =>
    cases hd : decode op <;>
      simp [runCommand, runExecuteCycle, executeDecoded, cpuEffect, hd, exec_eq, completes_next, raise_eq, State.setRegs,
        State.setRun, State.setPort, State.setCpu, State.reg]
  | executeTyped i =>
    simp [runCommand, runExecuteTyped, executeDecoded, cpuEffect, exec_eq, completes_next, State.setRegs, State.setRun,
      State.setPort, State.setCpu, State.reg]
  | add v => simp [runCommand, runAdd, cpuEffect, add_eq, respond_eq, State.setRegs, State.setPort, State.setCpu]
  | _ => first | (cases h; done) | rfl

/-! ## Accessors -/

/-- What an accessor answers when the reader is loaded and holds an image. -/
def accessorResponse (c : Command) (r : CartridgeReader) : Response :=
  let at_ (i : Nat) : Byte := cellAt r.content.cells i
  let from_ (addr n : Nat) : List Byte := (List.range n).map fun k => at_ (addr + k)
  match c with
  | .readSection tag =>
    match fieldOfTag tag with
    | some fd => .ok (.bytes (from_ (fieldFirst fd) (fieldLength fd)))
    | none => .raised (.invalidSectionTag tag)
  | .title => .ok (.bytes (trimTitle r.cTitle.toList))
  | .romSizeCode => .ok (.byte r.cRom)
  | .ramSizeCode => .ok (.byte r.cRam)
  | .cartridgeTypeCode => .ok (.byte r.cType)
  | .licCodeRaw => .ok (.byte r.cLic)
  | .romSize =>
    if r.cRom.toNat > 26 then .raised (.unsupportedRomSize r.cRom)
    else .ok (.romKilobytes (BitVec.ofNat 32 (32 * 2 ^ r.cRom.toNat)))
  | .ramSize =>
    match ramTable r.cRam with
    | some kb => .ok (.ramKilobytes kb)
    | none => .raised (.unsupportedRamSize r.cRam)
  | .cartridgeType =>
    match Config.cartTypeTable r.cType with
    | some name => .ok (.cartridgeType name)
    | none => .raised (.unsupportedCartridgeType r.cType)
  | .licCode =>
    match Config.licTable r.cLic with
    | some name => .ok (.licensee name)
    | none => .raised (.unsupportedLicenseCode r.cLic)
  | .destinationCode =>
    match Config.destTable (at_ 0x14A) with
    | some name => .ok (.region name)
    | none => .raised (.unsupportedDestinationCode (at_ 0x14A))
  | .checksum => .ok (.byte (at_ 0x14D))
  | .calculateChecksum => .ok (.byte (checksumOf (from_ 0x134 25)))
  | .verifyChecksum =>
    .ok (.verification (at_ 0x14D) (checksumOf (from_ 0x134 25)) (decide (at_ 0x14D = checksumOf (from_ 0x134 25))))
  | _ => .raised .notLoaded

/-- An accessor before the load raises NotLoaded, before any other test. -/
theorem runCommand_accessor_unloaded {c : Command} (h : c.isAccessor = true) {s : State} (hl : s.cart.loaded = false) :
    runCommand c s = raise .notLoaded s := by
  cases c <;> first | (cases h; done) | exact afterLoad_unloaded hl _

theorem fieldLast_lt (fd : HeaderField) : fieldFirst fd + fieldLength fd ≤ Config.minLen := by
  cases fd <;> decide

/-- An accessor after the load answers from the reader alone and writes nothing. -/
theorem runCommand_accessor_loaded {c : Command} (h : c.isAccessor = true) {s : State} (hl : s.cart.loaded = true)
    (hlen : Config.minLen ≤ s.cart.content.len) :
    runCommand c s = .next (s.setPort (some (accessorResponse c s.cart))) := by
  have hl' : 0x150 ≤ s.cart.content.len := hlen
  cases c with
  | readSection tag =>
    simp only [runCommand, runReadSection, accessorResponse, afterLoad_loaded hl, withEntry]
    cases fieldOfTag tag with
    | some fd => exact withBytes_toList _ ((fieldLast_lt fd).trans hlen) fun bs => respond (.bytes bs) s
    | none => rfl
  | title => exact afterLoad_loaded hl _
  | romSizeCode => exact afterLoad_loaded hl _
  | ramSizeCode => exact afterLoad_loaded hl _
  | cartridgeTypeCode => exact afterLoad_loaded hl _
  | licCodeRaw => exact afterLoad_loaded hl _
  | romSize =>
    simp only [runCommand, runRomSize, accessorResponse, afterLoad_loaded hl]
    split <;> rfl
  | ramSize =>
    simp only [runCommand, runRamSize, accessorResponse, afterLoad_loaded hl, withEntry]
    cases ramTable s.cart.cRam <;> rfl
  | cartridgeType =>
    simp only [runCommand, runCartridgeType, accessorResponse, afterLoad_loaded hl, withEntry]
    cases Config.cartTypeTable s.cart.cType <;> rfl
  | licCode =>
    simp only [runCommand, runLicCode, accessorResponse, afterLoad_loaded hl, withEntry]
    cases Config.licTable s.cart.cLic <;> rfl
  | destinationCode =>
    simp only [runCommand, runDestinationCode, accessorResponse, afterLoad_loaded hl,
      withByte_of_lt s.cart.content (show 0x14A < _ by omega), withEntry]
    cases Config.destTable (cellAt s.cart.content.cells 0x14A) <;> rfl
  | checksum =>
    simp only [runCommand, runChecksum, accessorResponse, afterLoad_loaded hl,
      withByte_of_lt s.cart.content (show 0x14D < _ by omega), respond_eq]
  | calculateChecksum =>
    simp only [runCommand, runCalculateChecksum, accessorResponse, afterLoad_loaded hl]
    exact withBytes_toList _ (by omega) fun bs => respond (.byte (checksumOf bs)) s
  | verifyChecksum =>
    simp only [runCommand, runVerifyChecksum, accessorResponse, afterLoad_loaded hl]
    rw [withByte_of_lt s.cart.content (by omega)]
    exact withBytes_toList _ (by omega) fun bs =>
      respond (.verification _ (checksumOf bs) (decide (_ = checksumOf bs))) s
  | _ => cases h

/-- An answer of an accessor: a response on the outputs and nothing else changed, or a fault. -/
def answerWith (s : State) : Except Fault Response → Answer
  | .ok p => .next (s.setPort (some p))
  | .error f => .fault f

/-- `f` reads the Cartridge Reader alone, which is `r`, and writes nothing but the outputs. -/
def ReadsOnlyReader (r : CartridgeReader) (f : State → Answer) : Prop :=
  ∃ a, ∀ s, s.cart = r → f s = answerWith s a

theorem readsOnly_respond (r : CartridgeReader) (g : CartridgeReader → Result) :
    ReadsOnlyReader r fun s => respond (g s.cart) s :=
  ⟨.ok (.ok (g r)), fun s h => by subst h; rfl⟩

theorem readsOnly_raise (r : CartridgeReader) (g : CartridgeReader → Exception) :
    ReadsOnlyReader r fun s => raise (g s.cart) s :=
  ⟨.ok (.raised (g r)), fun s h => by subst h; rfl⟩

theorem readsOnly_afterLoad {r : CartridgeReader} {f : State → Answer} (hf : ReadsOnlyReader r f) :
    ReadsOnlyReader r fun s => afterLoad s (f s) := by
  cases hl : r.loaded with
  | true =>
    obtain ⟨a, ha⟩ := hf
    exact ⟨a, fun s h => (afterLoad_loaded (by rw [h]; exact hl) _).trans (ha s h)⟩
  | false => exact ⟨.ok (.raised .notLoaded), fun s h => afterLoad_unloaded (by rw [h]; exact hl) _⟩

theorem readsOnly_withBytes {r : CartridgeReader} {addr n : Nat} {k : Vector Byte n → State → Answer}
    (hk : ∀ v, ReadsOnlyReader r (k v)) :
    ReadsOnlyReader r fun s => withBytes s.cart.content addr n fun v => k v s := by
  cases hr : r.content.read addr n with
  | some v =>
    obtain ⟨a, ha⟩ := hk v
    exact ⟨a, fun s h => by simp only [withBytes, h, hr]; exact ha s h⟩
  | none => exact ⟨.error (.offsetOutOfRange addr n), fun s h => by simp only [withBytes, h, hr]; rfl⟩

theorem readsOnly_withEntry {r : CartridgeReader} {α : Type} (o : CartridgeReader → Option α)
    (e : CartridgeReader → Exception) {k : α → State → Answer} (hk : ∀ x, ReadsOnlyReader r (k x)) :
    ReadsOnlyReader r fun s => withEntry (o s.cart) (e s.cart) s fun x => k x s := by
  cases ho : o r with
  | some x =>
    obtain ⟨a, ha⟩ := hk x
    exact ⟨a, fun s h => by simp only [withEntry, h, ho]; exact ha s h⟩
  | none => exact ⟨.ok (.raised (e r)), fun s h => by simp only [withEntry, h, ho]; rfl⟩

theorem readsOnly_ite {r : CartridgeReader} (n : CartridgeReader → Nat) (k : Nat) {f g : State → Answer}
    (hf : ReadsOnlyReader r f) (hg : ReadsOnlyReader r g) :
    ReadsOnlyReader r fun s => if n s.cart > k then f s else g s := by
  by_cases hc : n r > k
  · obtain ⟨a, ha⟩ := hf
    exact ⟨a, fun s h => by simp only [h, if_pos hc]; exact ha s h⟩
  · obtain ⟨a, ha⟩ := hg
    exact ⟨a, fun s h => by simp only [h, if_neg hc]; exact ha s h⟩

/-- Every accessor, in every state of the reader, reads the reader alone and writes nothing but the outputs. -/
theorem runCommand_accessor_readsOnly {c : Command} (h : c.isAccessor = true) (r : CartridgeReader) :
    ReadsOnlyReader r (runCommand c) := by
  cases c with
  | readSection tag =>
    exact readsOnly_afterLoad (readsOnly_withEntry (fun _ => fieldOfTag tag) (fun _ => .invalidSectionTag tag)
      fun fd => readsOnly_withBytes fun v => readsOnly_respond r fun _ => .bytes v.toList)
  | title => exact readsOnly_afterLoad (readsOnly_respond r fun q => .bytes (trimTitle q.cTitle.toList))
  | romSizeCode => exact readsOnly_afterLoad (readsOnly_respond r fun q => .byte q.cRom)
  | ramSizeCode => exact readsOnly_afterLoad (readsOnly_respond r fun q => .byte q.cRam)
  | cartridgeTypeCode => exact readsOnly_afterLoad (readsOnly_respond r fun q => .byte q.cType)
  | licCodeRaw => exact readsOnly_afterLoad (readsOnly_respond r fun q => .byte q.cLic)
  | romSize =>
    exact readsOnly_afterLoad (readsOnly_ite (fun q => q.cRom.toNat) 26
      (readsOnly_raise r fun q => .unsupportedRomSize q.cRom)
      (readsOnly_respond r fun q => .romKilobytes (BitVec.ofNat 32 (32 * 2 ^ q.cRom.toNat))))
  | ramSize =>
    exact readsOnly_afterLoad (readsOnly_withEntry (fun q => ramTable q.cRam) (fun q => .unsupportedRamSize q.cRam)
      fun kb => readsOnly_respond r fun _ => .ramKilobytes kb)
  | cartridgeType =>
    exact readsOnly_afterLoad (readsOnly_withEntry (fun q => Config.cartTypeTable q.cType)
      (fun q => .unsupportedCartridgeType q.cType) fun name => readsOnly_respond r fun _ => .cartridgeType name)
  | licCode =>
    exact readsOnly_afterLoad (readsOnly_withEntry (fun q => Config.licTable q.cLic)
      (fun q => .unsupportedLicenseCode q.cLic) fun name => readsOnly_respond r fun _ => .licensee name)
  | destinationCode =>
    exact readsOnly_afterLoad (readsOnly_withBytes fun v => readsOnly_withEntry (fun _ => Config.destTable v[0])
      (fun _ => .unsupportedDestinationCode v[0]) fun name => readsOnly_respond r fun _ => .region name)
  | checksum => exact readsOnly_afterLoad (readsOnly_withBytes fun v => readsOnly_respond r fun _ => .byte v[0])
  | calculateChecksum =>
    exact readsOnly_afterLoad (readsOnly_withBytes fun v => readsOnly_respond r fun _ => .byte (checksumOf v.toList))
  | verifyChecksum =>
    exact readsOnly_afterLoad (readsOnly_withBytes fun v => readsOnly_withBytes fun w => readsOnly_respond r fun _ =>
      .verification v[0] (checksumOf w.toList) (decide (v[0] = checksumOf w.toList)))
  | _ => cases h

/-- An accessor that answers a next state changed nothing but the outputs. -/
theorem runCommand_accessor_next {c : Command} (h : c.isAccessor = true) {s t : State} (ht : runCommand c s = .next t) :
    ∃ p, t = s.setPort (some p) := by
  obtain ⟨a, ha⟩ := runCommand_accessor_readsOnly h s.cart
  rw [ha s rfl] at ht
  cases a with
  | ok p => cases ht; exact ⟨p, rfl⟩
  | error f => cases ht

/-! ## Load -/

/-- The Cartridge Reader after a successful load. -/
def loadedReader (bytes : List Byte) : CartridgeReader :=
  { content := Memory.ofBytes bytes
    cTitle := Vector.ofFn fun k => bytes.getD (0x134 + k.val) unlistedByte
    cRom := bytes.getD 0x148 unlistedByte
    cRam := bytes.getD 0x149 unlistedByte
    cType := bytes.getD 0x147 unlistedByte
    cLic := bytes.getD 0x14B unlistedByte
    loaded := true }

/-- A reader that has loaded an image of a legal length has the invariant. -/
theorem loadedReader_inv {bytes : List Byte} (hmin : Config.minLen ≤ bytes.length) (hmax : bytes.length ≤ Config.maxLen) :
    (loadedReader bytes).Inv := by
  have hlen : 0x150 ≤ bytes.length := hmin
  have hb : ∀ i, i < 0x150 → (Memory.ofBytes bytes).byte? i = some (bytes.getD i unlistedByte) := by
    intro i hi
    rw [Memory.byte?_of_lt _ (by simp; omega), cellAt_ofBytes]
  refine ⟨Memory.ofBytes_wf _, (by intro h; cases h), fun _ => ⟨hmin, hmax, ?_, hb _ (by omega), hb _ (by omega),
    hb _ (by omega), hb _ (by omega)⟩⟩
  show (Memory.ofBytes bytes).read 0x134 15 = _
  rw [Memory.read_of_le _ (by simp; omega)]
  simp only [cellAt_ofBytes]
  rfl

/-- The byte a buffer made from an image has at an offset is the image's. -/
theorem Memory.byte?_ofBytes (bytes : List Byte) (i : Nat) : (Memory.ofBytes bytes).byte? i = bytes[i]? := by
  unfold Memory.byte?
  split
  · next h => rw [cellAt_ofBytes, List.getD_eq_getElem?_getD, List.getElem?_eq_getElem h]; rfl
  · next h => rw [List.getElem?_eq_none (Nat.le_of_not_lt h)]

/-- Load, whole: which of its tests decides, and the effect of each. -/
theorem runLoad_eq (bytes : List Byte) (s : State) :
    runLoad bytes s =
      if Config.maxLen < bytes.length then .refused (.imageTooLong bytes.length)
      else if s.cart.loaded then raise .alreadyLoaded s
      else if bytes.length < Config.minLen then raise (.truncatedHeader bytes.length) s
      else respond .none (s.setCart (loadedReader bytes)) := by
  unfold runLoad
  split
  · rfl
  split
  · rfl
  split
  · rfl
  · next hlen =>
    have hl : 0x150 ≤ (Memory.ofBytes bytes).len := Nat.le_of_not_lt hlen
    simp only [withBytes_of_le (Memory.ofBytes bytes) (show 0x134 + 15 ≤ _ by omega),
      withByte_of_lt (Memory.ofBytes bytes) (show 0x147 < _ by omega),
      withByte_of_lt (Memory.ofBytes bytes) (show 0x148 < _ by omega),
      withByte_of_lt (Memory.ofBytes bytes) (show 0x149 < _ by omega),
      withByte_of_lt (Memory.ofBytes bytes) (show 0x14B < _ by omega), cellAt_ofBytes]
    rfl

/-- A load that answers a next state: which of its three ends it came to. -/
theorem runLoad_next {bytes : List Byte} {s t : State} (h : runLoad bytes s = .next t) :
    (t = s.setPort (some (.raised .alreadyLoaded)) ∧ s.cart.loaded = true) ∨
    (t = s.setPort (some (.raised (.truncatedHeader bytes.length))) ∧ s.cart.loaded = false) ∨
    (t = (s.setCart (loadedReader bytes)).setPort (some (.ok .none)) ∧ s.cart.loaded = false ∧
      Config.minLen ≤ bytes.length ∧ bytes.length ≤ Config.maxLen) := by
  rw [runLoad_eq] at h
  split at h
  · cases h
  next hmax =>
    split at h
    next hl => cases h; exact .inl ⟨rfl, hl⟩
    next hl =>
      have hl' : s.cart.loaded = false := by simpa using hl
      split at h
      · cases h; exact .inr (.inl ⟨rfl, hl'⟩)
      next hmin => cases h; exact .inr (.inr ⟨rfl, hl', by omega, by omega⟩)

/-! ## The whole block -/

/-- Every command is a reset, a command of the CPU Core, an accessor, or a load. -/
theorem command_cases (c : Command) :
    c = .reset ∨ c = .resetCartridge ∨ c.toCpu = true ∨ c.isAccessor = true ∨ ∃ bytes, c = .load bytes := by
  cases c <;> simp [Command.toCpu, Command.isAccessor]

/-- A step takes the oldest waiting command and runs it. -/
theorem step_cons {s : State} {c : Command} {cs : List Command} (h : s.commands = c :: cs) :
    step s = runCommand c ((s.setCommands cs).setPort none) := by
  simp [step, stepCommand, h]

/-- Without a waiting command a step changes nothing but the outputs. -/
theorem step_nil {s : State} (h : s.commands = []) : step s = .next (s.setPort none) := by
  simp [step, stepCommand, h]

end Sys2Proof.Machine
end

