-- ==== Sys2Proof/Laws/PerInstr.lean ====
section
/-! SUPPORT. A statement about every instruction as syntax, made per instruction: it is well formed, its one byte is in
the family of ADD, and the decoder reads it back (30_encoding.md R60 to R62). -/

namespace Sys2Proof.Laws.RoundTrip

/-- Well formed, and encoding then decoding gives the instruction back. -/
def Statement (i : Instr) : Prop := i.wf = true ∧ decode (encode i) = .instr i

theorem addAB : Statement .addAB := ⟨rfl, rfl⟩
theorem addAC : Statement .addAC := ⟨rfl, rfl⟩
theorem addAD : Statement .addAD := ⟨rfl, rfl⟩
theorem addAE : Statement .addAE := ⟨rfl, rfl⟩

end Sys2Proof.Laws.RoundTrip
end

