-- ==== Sys2Proof/Tests/Slice0.lean ====
section
/-! SUPPORT. The smoke test of WellFormed, the decode words written out from the spec, small tests whose expected values
are the vectors of 95_test_vectors.md, and for every statement with hypotheses a state that meets them. -/

namespace Sys2Proof.Tests

open Sys2Proof Sys2Proof.Machine

/-! ## WellFormed -/

/-- The one check: a load of more than `MAX_LEN` bytes is ill formed. -/
theorem test_wf_refuses_overlong_load : (Command.load (List.replicate (Config.maxLen + 1) 0)).wf = false := by
  simp [Command.wf]

/-! ## Decode: words from 30_encoding.md R60 and R61, and the vectors V-X -/

theorem test_decode_add_a_b : decode 0b10000000 = .instr .addAB := by decide
theorem test_decode_add_a_c : decode 0b10000001 = .instr .addAC := by decide
theorem test_decode_add_a_d : decode 0b10000010 = .instr .addAD := by decide
theorem test_decode_add_a_e : decode 0b10000011 = .instr .addAE := by decide
theorem test_decode_below : decode 0x7F = .unknown 0x7F := by decide
theorem test_decode_above : decode 0x84 = .unknown 0x84 := by decide
theorem test_table_word_c : decodeTableWord 8 0x81 = some .addAC := by decide
theorem test_table_word_unknown : decodeTableWord 8 0xC0 = none := by decide

/-! ## The ADD family: vectors V-I, V-A, V-D1 -/

/-- Reset with the operands in `A`, `B`, `C`, `D`, `E` and all flags set. -/
def operands (a b c d e : Byte) : State :=
  { State.reset with cpu := { CpuCore.new with regs := { a := a, f := 0xF0, b := b, c := c, d := d, e := e, h := 0x55, l := 0xAA } } }

/-- `A` and `F` after an instruction. -/
def afterAdd (i : Instr) (s : State) : Option (Byte × Byte) :=
  match exec i s with
  | .next t => some (t.reg .a, t.reg .f)
  | _ => none

theorem test_add_a_b_wraps : afterAdd .addAB (operands 0x3A 0xC6 2 4 8) = some (0x00, 0xB0) := by decide
theorem test_add_a_b_takes_b : afterAdd .addAB (operands 0x10 1 2 4 8) = some (0x11, 0x00) := by decide
theorem test_add_a_c_dispatch : afterAdd .addAC (operands 0x09 0x55 0x01 4 8) = some (0x0A, 0x00) := by decide
theorem test_add_a_c_no_sign_flag : afterAdd .addAC (operands 0x7F 0x55 0x01 4 8) = some (0x80, 0x20) := by decide
theorem test_add_a_d_largest : afterAdd .addAD (operands 0xFF 1 2 0xFF 8) = some (0xFE, 0x30) := by decide
theorem test_add_a_d_takes_d : afterAdd .addAD (operands 0x10 1 2 4 8) = some (0x14, 0x00) := by decide
theorem test_add_a_e_carry_no_half : afterAdd .addAE (operands 0x80 1 2 4 0x80) = some (0x00, 0x90) := by decide
theorem test_add_a_e_takes_e : afterAdd .addAE (operands 0x10 1 2 4 8) = some (0x18, 0x00) := by decide

/-- V-D1 as one step from the placed byte. -/
theorem test_step_runs_placed_word :
    (match step ((operands 0x09 0 0x01 0 0).withFetchWord 8 0x81) with
      | .next t => some (t.reg .a, t.cpu.run, t.cpu.pc, t.port)
      | _ => none) = some (0x0A, .executing, 0, some (.ok .none)) := by decide

/-- V-X10: an unknown opcode from reset. -/
theorem test_step_unknown_opcode :
    (match step (State.reset.withFetchWord 8 0x00) with
      | .next t => some (t.reg .a, t.cpu.run, t.port)
      | _ => none) = some (0x00, .executing, some (.raised (.unknownInstruction 0x00))) := by decide

/-! ## Register File: vectors V-R -/

theorem test_set_pair_af_masks : (RegisterFile.new.setPair .af 0x12FF).getPair .af = 0x12F0 := by decide
theorem test_write_f_masks : (RegisterFile.new.write .f 0xA7).read .f = 0xA0 := by decide
theorem test_views_alias : ((RegisterFile.new.write .b 0xAB).write .c 0xCD).getPair .bc = 0xABCD := by decide
theorem test_byte_to_flags : byteToFlags 0xA5 = ⟨true, false, true, false⟩ := by decide

/-! ## Cartridge Reader: vectors V-T, V-K, V-H1 and the size tables -/

theorem test_title_keeps_inner_zero : trimTitle [0x41, 0, 0x42, 0, 0] = [0x41, 0, 0x42] := by decide
theorem test_title_nothing_trails : trimTitle [0, 0, 0x41] = [0, 0, 0x41] := by decide
theorem test_title_empty : trimTitle (List.replicate 15 0) = [] := by decide
theorem test_title_text : titleDecode [0x43, 0x50, 0x55, 0x5F] = ['C', 'P', 'U', '_'] := by decide
theorem test_checksum_zeros : checksumAccumulator (List.replicate 25 0x00) = 0xFFE7 := by decide
theorem test_checksum_ones : checksumAccumulator (List.replicate 25 0xFF) = 0xE700 := by decide

/-- The window of V-H1. -/
theorem test_checksum_vh1 : checksumAccumulator
    [0x43, 0x50, 0x55, 0x5F, 0x49, 0x4E, 0x53, 0x54, 0x52, 0x53, 0, 0, 0, 0, 0, 0x80, 0, 0, 0, 1, 1, 0, 0, 0, 0] =
    0xFC3B := by decide

theorem test_ram_table : [0, 1, 2, 3, 4, 0xFF].map ramTable = [some 0, some 2, some 8, some 32, none, none] := by decide

/-- A loaded reader with the given code bytes. -/
def withCodes (rom ram : Byte) : State :=
  { State.reset with cart := { CartridgeReader.new with cRom := rom, cRam := ram, loaded := true } }

theorem test_rom_size_26 : runRomSize (withCodes 26 0) =
    .next { withCodes 26 0 with port := some (.ok (.romKilobytes 2147483648)) } := by rfl
theorem test_rom_size_27 : runRomSize (withCodes 27 0) =
    .next { withCodes 27 0 with port := some (.raised (.unsupportedRomSize 27)) } := by rfl

/-- V-C3: NotLoaded is tested before the tag. -/
theorem test_not_loaded_before_tag : runReadSection 12 State.reset =
    .next { State.reset with port := some (.raised .notLoaded) } := by rfl

/-! ## Witnesses: for each statement with hypotheses, a state and operands that meet them together -/

/-- Reset with commands waiting. -/
def waiting (cs : List Command) : State := { State.reset with commands := cs }

/-- 336 bytes of 0x00 (V-C6). -/
def zeroImage : List Byte := List.replicate 0x150 0x00

/-- 335 bytes of 0x00 (V-C5). -/
def shortImage : List Byte := List.replicate 0x14F 0x00

theorem min_le_max : 0x150 ≤ Config.maxLen := Nat.le_add_left _ _

theorem zeroImage_length : zeroImage.length = 0x150 := List.length_replicate

theorem zeroImage_at {i : Nat} (h : i < 0x150) : zeroImage[i]? = some 0 := by
  rw [zeroImage, List.getElem?_replicate, if_pos h]

theorem zeroImage_le_max : zeroImage.length ≤ Config.maxLen := by rw [zeroImage_length]; exact min_le_max

/-- The shortest image a load accepts is well formed. -/
theorem test_wf_accepts_min_load : (Command.load zeroImage).wf = true := by
  simpa only [Command.wf, decide_eq_true_eq] using zeroImage_le_max

/-- A reader that holds `image`, with commands waiting. -/
def holding (image : List Byte) (cs : List Command) : State :=
  { State.reset with cart := loadedReader image, commands := cs }

theorem holding_holdsImage {image : List Byte} (h : image.length = 0x150) (cs : List Command) :
    (holding image cs).HoldsImage image :=
  ⟨loadedReader_inv (by rw [h]; exact Nat.le_refl _) (by rw [h]; exact min_le_max), rfl, Memory.byte?_ofBytes image⟩

theorem reset_cpu_inv : CpuCore.new.Inv := by
  refine ⟨?_, rfl, rfl⟩
  decide

theorem holding_inv (cs : List Command) : (holding zeroImage cs).Inv :=
  ⟨reset_cpu_inv, (holding_holdsImage zeroImage_length cs).1⟩

theorem waiting_inv (cs : List Command) : (waiting cs).Inv :=
  ⟨reset_cpu_inv, rfl, fun _ => rfl, by intro h; cases h⟩

theorem witness_NewZeroesRegistersAndReader : (waiting [.reset]).commands = .reset :: [] := rfl

theorem witness_ResetCommandsRestoreNew :
    (waiting [.reset]).commands = .reset :: [] ∧ (waiting [.resetCpu]).commands = .resetCpu :: [] ∧
    (waiting [.resetCartridge]).commands = .resetCartridge :: [] := ⟨rfl, rfl, rfl⟩

theorem witness_OnlyResetWritesPcAndSp :
    (∃ t, step (waiting [.resetCpu]) = .next t) ∧ ∃ t, step (waiting [.executeCycle 0x80]) = .next t :=
  ⟨⟨_, rfl⟩, ⟨_, rfl⟩⟩

theorem witness_ViewsRoundTrip : RegisterFile.new.f &&& 0x0F = 0 ∧ Pair.bc ≠ .af := by decide

theorem witness_AddABWritesSumAndFlags :
    (operands 0x3A 0xC6 0 0 0).reg .a = 0x3A ∧ (operands 0x3A 0xC6 0 0 0).reg .b = 0xC6 := ⟨rfl, rfl⟩

theorem witness_AddACWritesSumAndFlags :
    (operands 0x09 0 0x01 0 0).reg .a = 0x09 ∧ (operands 0x09 0 0x01 0 0).reg .c = 0x01 := ⟨rfl, rfl⟩

theorem witness_AddADWritesSumAndFlags :
    (operands 0xFF 0 0 0xFF 0).reg .a = 0xFF ∧ (operands 0xFF 0 0 0xFF 0).reg .d = 0xFF := ⟨rfl, rfl⟩

theorem witness_AddAEWritesSumAndFlags :
    (operands 0x80 0 0 0 0x80).reg .a = 0x80 ∧ (operands 0x80 0 0 0 0x80).reg .e = 0x80 := ⟨rfl, rfl⟩

theorem witness_AddFamilyFrame : ∀ i : Instr, ∃ t, exec i (operands 1 2 3 4 5) = .next t := by
  intro i; cases i <;> exact ⟨_, rfl⟩

/-- Two states that differ in `C`, `D`, `E` alone. -/
theorem witness_AddReadsOnlyItsTwoOperands :
    (operands 1 2 3 4 5).reg .a = (operands 1 2 0 0 0).reg .a ∧
    (operands 1 2 3 4 5).reg (regOfTarget Instr.addAB.target) = (operands 1 2 0 0 0).reg (regOfTarget Instr.addAB.target) :=
  ⟨rfl, rfl⟩

theorem witness_DecodeAndEncodeAgree :
    decode 0x83 = .instr .addAE ∧ decode 0x84 = .unknown 0x84 := by decide

theorem witness_UnknownOpcodeIsReported :
    ((0x7F : Byte).toNat < 0x80 ∧ (waiting [.executeCycle 0x7F]).commands = .executeCycle 0x7F :: []) ∧
    (0x83 < (0x84 : Byte).toNat ∧ (waiting [.executeCycle 0x84]).commands = .executeCycle 0x84 :: []) ∧
    ∃ s : State, s.commands = .executeCycle 0x84 :: [] ∧ s.reg .a = 0x09 ∧ s.reg .f = 0x00 :=
  ⟨⟨by decide, rfl⟩, ⟨by decide, rfl⟩,
    { waiting [.executeCycle 0x84] with cpu := { CpuCore.new with regs := { RegisterFile.new with a := 0x09 } } },
    rfl, rfl, rfl⟩

theorem witness_StepRunsTheDecodedInstruction :
    decode 0x82 = .instr .addAD ∧ (waiting [.executeCycle 0x82]).commands = .executeCycle 0x82 :: [] :=
  ⟨by decide, rfl⟩

theorem witness_PlacedWordRunsNext : decodeTableWord 8 0x83 = some .addAE := by decide

theorem witness_StepWithoutCommandWaits : State.reset.commands = [] := rfl

theorem witness_LoadStoresTheImage :
    (waiting [.load zeroImage]).commands = .load zeroImage :: [] ∧ (waiting [.load zeroImage]).cart.loaded = false ∧
    0x150 ≤ zeroImage.length ∧ zeroImage.length ≤ Config.maxLen :=
  ⟨rfl, rfl, Nat.le_of_eq zeroImage_length.symm, zeroImage_le_max⟩

theorem witness_ShortImageIsTruncatedHeader :
    (waiting [.load shortImage, .load zeroImage]).commands = .load shortImage :: .load zeroImage :: [] ∧
    (waiting [.load shortImage, .load zeroImage]).cart.loaded = false ∧ shortImage.length < 0x150 ∧
    0x150 ≤ zeroImage.length ∧ zeroImage.length ≤ Config.maxLen :=
  ⟨rfl, rfl, List.length_replicate.trans_lt (by decide), Nat.le_of_eq zeroImage_length.symm, zeroImage_le_max⟩

theorem witness_SecondLoadIsAlreadyLoaded :
    (holding zeroImage [.load zeroImage]).commands = .load zeroImage :: [] ∧
    (holding zeroImage [.load zeroImage]).cart.loaded = true ∧ zeroImage.length ≤ Config.maxLen :=
  ⟨rfl, rfl, zeroImage_le_max⟩

theorem witness_AccessorBeforeLoadIsNotLoaded :
    (waiting [.readSection 12]).commands = .readSection 12 :: [] ∧ (Command.readSection 12).isAccessor = true ∧
    (waiting [.readSection 12]).cart.loaded = false := ⟨rfl, rfl, rfl⟩

theorem witness_AccessorsArePure :
    Command.title.isAccessor = true ∧ (holding zeroImage []).cart.Inv ∧ (waiting []).cart.Inv :=
  ⟨rfl, (holding_inv []).2, (waiting_inv []).2⟩

theorem witness_BufferIsNeverMutated :
    (∃ t, step (waiting [.title]) = .next t) ∧ (∃ t, step (waiting [.resetCartridge]) = .next t) ∧
    ∃ t, step (waiting [.load zeroImage]) = .next t := by
  refine ⟨⟨_, rfl⟩, ⟨_, rfl⟩, ?_⟩
  have hmax : ¬ Config.maxLen < zeroImage.length := Nat.not_lt.2 zeroImage_le_max
  have hmin : ¬ zeroImage.length < Config.minLen := Nat.not_lt.2 (Nat.le_of_eq zeroImage_length.symm)
  have hs := step_cons (s := waiting [.load zeroImage]) (c := .load zeroImage) (cs := []) rfl
  rw [runCommand, runLoad_eq, if_neg hmax] at hs
  exact ⟨_, hs.trans ((if_neg Bool.false_ne_true).trans (if_neg hmin))⟩

/-- Every statement over a loaded image, and the tags at the two ends of the range without a field. -/
theorem witness_ReadSectionAnswersTheHeaderMap :
    (holding zeroImage []).HoldsImage zeroImage ∧ 9 < (10 : BitVec 4).toNat ∧ 9 < (15 : BitVec 4).toNat :=
  ⟨holding_holdsImage zeroImage_length [], by decide, by decide⟩

theorem witness_RawCodesAreTheImagesBytes : (holding zeroImage []).HoldsImage zeroImage :=
  holding_holdsImage zeroImage_length []

theorem witness_TitleDropsTrailingZeros :
    (waiting []).cart.loaded = false ∧ (holding zeroImage []).cart.loaded = true := ⟨rfl, rfl⟩

theorem witness_RomSizeIsExactOrUnsupported :
    ((withCodes 26 0).cart.loaded = true ∧ (withCodes 26 0).cart.cRom.toNat ≤ 26) ∧
    ((withCodes 27 0).cart.loaded = true ∧ 26 < (withCodes 27 0).cart.cRom.toNat) := by decide

theorem witness_RamSizeFollowsItsTable :
    (waiting []).cart.loaded = false ∧
    ((withCodes 0 3).cart.loaded = true ∧ (withCodes 0 3).cart.cRam = 3) ∧
    ((withCodes 0 4).cart.loaded = true ∧ 3 < (withCodes 0 4).cart.cRam.toNat) := by decide

theorem witness_TableAccessorsFollowTheirTables :
    (holding zeroImage []).HoldsImage zeroImage ∧ zeroImage[0x147]? = some 0 ∧ zeroImage[0x14B]? = some 0 ∧
    zeroImage[0x14A]? = some 0 :=
  ⟨holding_holdsImage zeroImage_length [], zeroImage_at (by omega), zeroImage_at (by omega), zeroImage_at (by omega)⟩

theorem witness_ChecksumAnswersTheStoredByte :
    (waiting []).cart.loaded = false ∧ (holding zeroImage []).HoldsImage zeroImage :=
  ⟨rfl, holding_holdsImage zeroImage_length []⟩

theorem witness_CalculatedChecksumClosedForm : (holding zeroImage []).HoldsImage zeroImage :=
  holding_holdsImage zeroImage_length []

theorem witness_VerifyComparesStoredAndComputed : (holding zeroImage []).HoldsImage zeroImage :=
  holding_holdsImage zeroImage_length []

/-- The last byte of the window changed from 0 to 1, on the image of V-K7. -/
theorem witness_OneChangedWindowByteIsDetected :
    (holding zeroImage []).HoldsImage zeroImage ∧
    (holding (zeroImage.set 0x14C 1) []).HoldsImage (zeroImage.set 0x14C 1) ∧
    zeroImage[0x14C]? = some 0 ∧ (1 : Byte) ≠ 0 ∧ ∃ stored computed ok,
      runCommand .verifyChecksum (holding zeroImage []) =
        .next { holding zeroImage [] with port := some (.ok (.verification stored computed ok)) } := by
  refine ⟨holding_holdsImage zeroImage_length [], holding_holdsImage (by rw [List.length_set, zeroImage_length]) [],
    zeroImage_at (by omega), by decide, _, _, _,
    runCommand_accessor_loaded rfl rfl (Nat.le_of_eq zeroImage_length.symm)⟩

theorem witness_MemReadIsSingleByteReads : ∃ v : Vector Byte 2, (Memory.ofBytes [1, 0, 2]).read 1 2 = some v := ⟨_, rfl⟩

theorem witness_EveryStepKeepsTheInvariant :
    (waiting [.executeCycle 0x80]).Inv ∧ ∃ t, step (waiting [.executeCycle 0x80]) = .next t := ⟨waiting_inv _, _, rfl⟩

/-- A command that raises, one that answers OK, and a reset: each meets the hypotheses, and both last clauses have a
command. -/
theorem witness_EveryCommandCompletes :
    ((holding zeroImage [.readSection 15]).Inv ∧ (Command.readSection 15).wf = true ∧
      (Command.readSection 15).isReset = false) ∧
    ((holding zeroImage [.checksum]).Inv ∧ Command.checksum.wf = true ∧ Command.checksum.isReset = false) ∧
    ((holding zeroImage [.resetCpu]).Inv ∧ Command.resetCpu.wf = true ∧ Command.resetCpu.isReset = true) ∧
    ∀ c : Command, (holding zeroImage [c]).commands = c :: [] :=
  ⟨⟨holding_inv _, rfl, rfl⟩, ⟨holding_inv _, rfl, rfl⟩, ⟨holding_inv _, rfl, rfl⟩, fun _ => rfl⟩

theorem witness_OnlyOverlongLoadIsRefused :
    Config.maxLen < (List.replicate (Config.maxLen + 1) (0 : Byte)).length := by simp

theorem witness_NoRunEverStops :
    (holding zeroImage [.title, .executeCycle 0x84]).Inv ∧ (holding zeroImage [.title, .executeCycle 0x84]).CommandsWf := by
  refine ⟨holding_inv _, ?_⟩
  intro c hc
  simp only [holding, List.mem_cons, List.not_mem_nil, or_false] at hc
  rcases hc with rfl | rfl <;> rfl

theorem witness_InstructionListSumsItsOperands :
    (waiting (programCommands [.addAB, .addAE])).commands = programCommands [.addAB, .addAE] := rfl

theorem witness_StreamIsCleanExactlyOnTheFourOpcodes :
    (waiting ([0x80, 0x84].map .executeCycle)).commands = [0x80, 0x84].map .executeCycle := rfl

theorem witness_ExceptionsChangeNothingButRun :
    (∃ t, step (waiting [.title]) = .next t ∧ t.port = some (.raised .notLoaded)) ∧
    ∃ t, step (waiting [.executeCycle 0xFF]) = .next t ∧ t.port = some (.raised (.unknownInstruction 0xFF)) :=
  ⟨⟨_, rfl, rfl⟩, ⟨_, rfl, rfl⟩⟩

theorem witness_RunStateLeavesExecutingOnlyByReset :
    (∃ t, step (waiting [.executeTyped .addAC]) = .next t) ∧
    ∃ t, step ((waiting [.reset]).setRun .executing) = .next t ∧
      ((waiting [.reset]).setRun .executing).cpu.run = .executing ∧ t.cpu.run = .idle := ⟨⟨_, rfl⟩, _, rfl, rfl, rfl⟩

theorem witness_RunStateChangesNoResult : ∃ t, step (waiting [.getPair 0]) = .next t := ⟨_, rfl⟩

theorem witness_CpuAndCartridgeCommandsCommute :
    (waiting []).cart.Inv ∧ (Command.executeCycle 0x80).toCpu = true ∧ (Command.load zeroImage).toCart = true ∧
    (Command.load zeroImage).wf = true :=
  ⟨(waiting_inv []).2, rfl, rfl, test_wf_accepts_min_load⟩

theorem witness_ComponentsDoNotInterfere :
    (waiting [.executeCycle 0x80, .reset, .title]).Inv ∧ (waiting [.executeCycle 0x80, .reset, .title]).CommandsWf := by
  refine ⟨waiting_inv _, ?_⟩
  intro c hc
  simp only [waiting, List.mem_cons, List.not_mem_nil, or_false] at hc
  rcases hc with rfl | rfl | rfl <;> rfl

theorem witness_StatusCodesFollowTheTable :
    ({ State.reset with port := some (.ok (.byte 0x3B)) } : State).port = some (.ok (.byte 0x3B)) ∧
    ({ State.reset with port := some (.raised .notLoaded) } : State).port = some (.raised .notLoaded) ∧
    State.reset.port = none := ⟨rfl, rfl, rfl⟩

theorem witness_AddFlagBytesAreTheSeven : (0xB0 : Byte) ∈ addFlagBytes := by decide

/-- P1 of 95_test_vectors.md, its comments cut short: a line with a comment alone, then four instructions. -/
theorem test_program_p1 :
    (parseProgram
      [[';', ' ', 's', 't', 'a', 'r', 't'],
       ['A', 'D', 'D', ' ', 'A', ',', 'B', ' ', ' ', ';', ' ', '8', '0'],
       ['A', 'D', 'D', ' ', 'A', ',', 'C', ' ', ' ', ';', ' ', '8', '1'],
       ['A', 'D', 'D', ' ', 'A', ',', 'D', ' ', ' ', ';', ' ', '8', '2'],
       ['A', 'D', 'D', ' ', 'A', ',', 'E']]).map encodeProgram = some [0x80, 0x81, 0x82, 0x83] := by decide

end Sys2Proof.Tests
end

namespace Sys2Proof.Machine

/-! ## What writes the Cartridge Reader (10_state.md R26) -/

/-- A command of the CPU Core leaves the Cartridge Reader as it was. -/
theorem runCommand_cpu_cart {c : Command} (h : c.toCpu = true) {s t : State} (ht : runCommand c s = .next t) :
    t.cart = s.cart := by
  rw [runCommand_cpu h] at ht
  cases ht
  rfl

/-- An accessor leaves the Cartridge Reader as it was. -/
theorem runCommand_accessor_cart {c : Command} (h : c.isAccessor = true) {s t : State}
    (ht : runCommand c s = .next t) : t.cart = s.cart := by
  obtain ⟨p, rfl⟩ := runCommand_accessor_next h ht
  rfl

/-- A load leaves the Cartridge Reader as it was, unless it was unloaded and the load answers OK. -/
theorem runLoad_cart {bytes : List Byte} {s t : State} (ht : runLoad bytes s = .next t) :
    t.cart = s.cart ∨ (s.cart.loaded = false ∧ t.port = some (.ok .none) ∧ t.cart = loadedReader bytes) := by
  obtain ⟨rfl, -⟩ | ⟨rfl, -⟩ | ⟨rfl, hl, -, -⟩ := runLoad_next ht
  · exact .inl rfl
  · exact .inl rfl
  · exact .inr ⟨hl, rfl, rfl⟩

/-- Every way a command that answers a next state can leave the Cartridge Reader. -/
theorem runCommand_cart {c : Command} {s t : State} (ht : runCommand c s = .next t) :
    t.cart = s.cart ∨ ((c = .reset ∨ c = .resetCartridge) ∧ t.cart = CartridgeReader.new) ∨
    ∃ bytes, c = .load bytes ∧ s.cart.loaded = false ∧ t.port = some (.ok .none) ∧ t.cart = loadedReader bytes := by
  obtain rfl | rfl | hcpu | hacc | ⟨bytes, rfl⟩ := command_cases c
  · cases ht; exact .inr (.inl ⟨.inl rfl, rfl⟩)
  · cases ht; exact .inr (.inl ⟨.inr rfl, rfl⟩)
  · exact .inl (runCommand_cpu_cart hcpu ht)
  · exact .inl (runCommand_accessor_cart hacc ht)
  · exact (runLoad_cart ht).imp_right fun hload => .inr ⟨bytes, rfl, hload⟩

/-- Settles O32: of the commands only the two resets of the reader and a successful load write it. -/
theorem bufferIsNeverMutated : Obligations.BufferIsNeverMutated := by
  intro s t c cs hc ht
  rw [step_cons hc] at ht
  obtain hkept | hreset | ⟨bytes, hload, hl, hport, hcart⟩ := runCommand_cart ht
  · exact .inl hkept
  · exact .inr (.inl hreset)
  · exact .inr (.inr ⟨bytes, hload, hl, hport, congrArg CartridgeReader.loaded hcart⟩)

end Sys2Proof.Machine

namespace Sys2Proof.Machine

/-! ## The bytes outside the family of ADD (30_encoding.md R60, R65; 41_cpu_add.md R107) -/

/-- The family field is the byte without its two low bits. -/
theorem toNat_op6Field (op : Byte) : (op6Field op).toNat = op.toNat / 4 := by
  rw [op6Field, BitVec.extractLsb'_toNat, Nat.shiftRight_eq_div_pow]
  have := op.isLt
  omega

/-- The family of ADD is the four bytes 0x80 to 0x83. -/
theorem op6Field_eq_addFamily_iff (op : Byte) : op6Field op = addFamily ↔ 0x80 ≤ op.toNat ∧ op.toNat ≤ 0x83 := by
  have hfam : addFamily.toNat = 0x20 := rfl
  rw [← BitVec.toNat_inj, toNat_op6Field, hfam]
  omega

/-- The decoder answers Unknown exactly outside the family of ADD. -/
theorem decode_eq_unknown_iff (op : Byte) : decode op = .unknown op ↔ op.toNat < 0x80 ∨ 0x83 < op.toNat := by
  have hfam : decode op = .unknown op ↔ op6Field op ≠ addFamily := by simp [decode]
  rw [hfam, Ne, op6Field_eq_addFamily_iff]
  omega

/-- A step on an opcode that decodes to Unknown writes `run` alone and reports the byte. -/
theorem step_executeCycle_unknown {s : State} {op : Byte} {cs : List Command}
    (hc : s.commands = .executeCycle op :: cs) (hd : decode op = .unknown op) :
    step s = .next (((s.setCommands cs).setRun .executing).setPort (some (.raised (.unknownInstruction op)))) := by
  rw [step_cons hc, runCommand, runExecuteCycle, hd, executeDecoded, raise_eq]
  rfl

/-- Settles O23: outside the family of ADD the decoder answers Unknown, and such a step writes `run` alone. -/
theorem unknownOpcodeIsReported : Obligations.UnknownOpcodeIsReported := by
  refine ⟨fun op s cs hop hc => ?_, fun s cs hc ha hf => ?_⟩
  · have hd : decode op = .unknown op := (decode_eq_unknown_iff op).mpr hop
    exact ⟨hd, step_executeCycle_unknown hc hd⟩
  · have hd : decode 0x84 = .unknown 0x84 := (decode_eq_unknown_iff 0x84).mpr (.inr (by decide))
    exact ⟨_, step_executeCycle_unknown hc hd, rfl, ha, hf⟩

end Sys2Proof.Machine

namespace Sys2Proof.Machine

/-! ## `new()` and the reset input (40_register_file.md R81, 42_cartridge_header.md R120) -/

@[simp] theorem RegisterFile.read_new (x : Reg) : RegisterFile.new.read x = 0x00 := by cases x <;> rfl

@[simp] theorem RegisterFile.getPair_new (p : Pair) : RegisterFile.new.getPair p = 0x0000 := by
  rw [RegisterFile.getPair, read_new, read_new]
  cases p <;> rfl

@[simp] theorem Memory.byte?_empty (i : Nat) : Memory.empty.byte? i = none := if_neg (Nat.not_lt_zero i)

/-- The reset input leaves the state after reset, but for the commands that still wait. -/
theorem step_reset {s : State} {cs : List Command} (hc : s.commands = .reset :: cs) :
    step s = .next { State.reset with commands := cs } :=
  step_cons hc

/-- Settles O1: what `new()` leaves is read off its two records, and the reset input puts both in place. -/
theorem newZeroesRegistersAndReader : Obligations.NewZeroesRegistersAndReader := by
  have hflags : byteToFlags (RegisterFile.new.read .f) = ⟨false, false, false, false⟩ := by
    rw [RegisterFile.read_new]; decide
  have htitle : CartridgeReader.new.cTitle.toList = List.replicate 15 0x00 := Vector.toList_replicate
  refine ⟨RegisterFile.read_new, hflags, RegisterFile.getPair_new, rfl, Memory.byte?_empty, htitle,
    rfl, rfl, rfl, rfl, rfl, rfl, fun s cs hc => ?_⟩
  exact ⟨_, step_reset hc, rfl, rfl, fun e => (Option.some_ne_none (Response.raised e)).symm⟩

end Sys2Proof.Machine

namespace Sys2Proof.Machine

/-! ## The flags byte and the flags record (40_register_file.md R87, R88) -/

/-- The byte of a record gives each flag back: each stands at its own bit. -/
@[simp] theorem byteToFlags_flagsToByte (fl : Flags) : byteToFlags (flagsToByte fl) = fl := by
  obtain ⟨z, n, h, c⟩ := fl
  revert z n h c; decide

theorem flagsToByte_low_nibble (fl : Flags) : flagsToByte fl &&& 0x0F = 0 :=
  (maskF_eq_self_iff _).mp (maskF_flagsToByte fl)

/-- The four flags as a number: the bits are disjoint, so they add up. -/
theorem toNat_flagsToByte (fl : Flags) :
    (flagsToByte fl).toNat = (if fl.zero then 0x80 else 0) + (if fl.subtract then 0x40 else 0) +
      (if fl.halfCarry then 0x20 else 0) + (if fl.carry then 0x10 else 0) := by
  obtain ⟨z, n, h, c⟩ := fl
  revert z n h c; decide

/-- The flags are above the bits the mask drops. -/
@[simp] theorem byteToFlags_maskF (v : Byte) : byteToFlags (maskF v) = byteToFlags v := by
  simp [byteToFlags, maskF]

/-- The command answers the byte and writes no state. -/
theorem runCommand_flagsToByte (fl : Flags) (s : State) :
    runCommand (.flagsToByte fl) s = .next (s.setPort (some (.ok (.byte (flagsToByte fl))))) :=
  runCommand_cpu rfl s

/-- The command answers the record and writes no state. -/
theorem runCommand_byteToFlags (b : Byte) (s : State) :
    runCommand (.byteToFlags b) s = .next (s.setPort (some (.ok (.flags (byteToFlags b))))) :=
  runCommand_cpu rfl s

/-- Settles O5: a flag's bit is the flag that the byte gives back as a record. -/
theorem flagsToByteBitPositions : Obligations.FlagsToByteBitPositions := by
  refine ⟨fun fl s => ⟨flagsToByte fl, runCommand_flagsToByte fl s, ?_⟩, by decide⟩
  have hback := byteToFlags_flagsToByte fl
  exact ⟨congrArg Flags.zero hback, congrArg Flags.subtract hback, congrArg Flags.halfCarry hback,
    congrArg Flags.carry hback, flagsToByte_low_nibble fl, toNat_flagsToByte fl⟩

/-- Settles O6: the command answers `byte_to_flags` of the byte, whose four fields are its bits 7 to 4. -/
theorem byteToFlagsReadsUpperNibble : Obligations.ByteToFlagsReadsUpperNibble :=
  ⟨runCommand_byteToFlags, by decide, by decide, by decide⟩

end Sys2Proof.Machine

namespace Sys2Proof.Machine

/-! ## The write of a view (40_register_file.md R86) -/

/-- `set_pair` of any view, named by its select code: the Register File's own `set_pair`, and nothing else. -/
theorem runCommand_setPair (p : Pair) (v : Word16) (s : State) :
    runCommand (.setPair (selOfPair p) v) s =
      .next ((s.setRegs (s.cpu.regs.setPair p v)).setPort (some (.ok .none))) := by
  rw [runCommand, runSetPair, pairOfSel_selOfPair, respond_eq]

theorem RegisterFile.setPair_af (rf : RegisterFile) (v : Word16) :
    rf.setPair .af v = { rf with a := highByte v, f := maskF (lowByte v) } := rfl

theorem RegisterFile.setPair_bc (rf : RegisterFile) (v : Word16) :
    rf.setPair .bc v = { rf with b := highByte v, c := lowByte v } := rfl

theorem RegisterFile.setPair_de (rf : RegisterFile) (v : Word16) :
    rf.setPair .de v = { rf with d := highByte v, e := lowByte v } := rfl

theorem RegisterFile.setPair_hl (rf : RegisterFile) (v : Word16) :
    rf.setPair .hl v = { rf with h := highByte v, l := lowByte v } := rfl

/-- The flags in the low byte of a view's value are its bits 7 to 4. -/
theorem byteToFlags_lowByte (v : Word16) :
    byteToFlags (lowByte v) = ⟨v.getLsbD 7, v.getLsbD 6, v.getLsbD 5, v.getLsbD 4⟩ := by
  simp [byteToFlags, lowByte]

/-- `set_pair(AF, v)` sets the flags from the low byte: the mask on `F` leaves all four. -/
theorem byteToFlags_setPair_af (rf : RegisterFile) (v : Word16) :
    byteToFlags ((rf.setPair .af v).read .f) = byteToFlags (lowByte v) := by
  have hread : (rf.setPair .af v).read .f = maskF (lowByte v) := RegisterFile.read_write_self _ .f _
  rw [hread, byteToFlags_maskF]

/-- Settles O9: the write of each view is one record update, and the flags are kept by the mask on `F`. -/
theorem setPairWritesBothRegisters : Obligations.SetPairWritesBothRegisters := by
  refine ⟨fun v s => ⟨?_, ?_, ?_, ?_⟩, fun v rf => ?_, by decide, by decide, by decide, by decide⟩
  · rw [runCommand_setPair, RegisterFile.setPair_af]; rfl
  · rw [runCommand_setPair, RegisterFile.setPair_bc]; rfl
  · rw [runCommand_setPair, RegisterFile.setPair_de]; rfl
  · rw [runCommand_setPair, RegisterFile.setPair_hl]; rfl
  · rw [byteToFlags_setPair_af, byteToFlags_lowByte]

end Sys2Proof.Machine

namespace Sys2Proof.Machine

/-! ## What writes `pc` and `sp` (41_cpu_add.md R99) -/

/-- Of the commands of the CPU Core only its reset writes `pc` or `sp`. -/
theorem cpuEffect_pc_sp {c : Command} (hc : c ≠ .resetCpu) (u : CpuCore) :
    (cpuEffect c u).1.pc = u.pc ∧ (cpuEffect c u).1.sp = u.sp := by
  cases c with
  | resetCpu => exact absurd rfl hc
  | executeCycle op => cases hd : decode op <;> simp [cpuEffect, hd]
  | _ => exact ⟨rfl, rfl⟩

/-- A command of the CPU Core, other than its reset, keeps `pc` and `sp`. -/
theorem runCommand_cpu_pc_sp {c : Command} (h : c.toCpu = true) (hc : c ≠ .resetCpu) {s t : State}
    (ht : runCommand c s = .next t) : t.cpu.pc = s.cpu.pc ∧ t.cpu.sp = s.cpu.sp := by
  rw [runCommand_cpu h] at ht
  cases ht
  exact cpuEffect_pc_sp hc s.cpu

/-- An accessor leaves the CPU Core as it was. -/
theorem runCommand_accessor_cpu {c : Command} (h : c.isAccessor = true) {s t : State}
    (ht : runCommand c s = .next t) : t.cpu = s.cpu := by
  obtain ⟨p, rfl⟩ := runCommand_accessor_next h ht
  rfl

/-- So does a load, whichever of its three ends it comes to. -/
theorem runLoad_cpu {bytes : List Byte} {s t : State} (ht : runLoad bytes s = .next t) : t.cpu = s.cpu := by
  obtain ⟨rfl, -⟩ | ⟨rfl, -⟩ | ⟨rfl, -⟩ := runLoad_next ht <;> rfl

/-- Every way a command that answers a next state can leave `pc` and `sp`. -/
theorem runCommand_pc_sp {c : Command} {s t : State} (ht : runCommand c s = .next t) :
    ((c = .reset ∨ c = .resetCpu) ∧ t.cpu = CpuCore.new) ∨ (t.cpu.pc = s.cpu.pc ∧ t.cpu.sp = s.cpu.sp) := by
  obtain rfl | rfl | hcpu | hacc | ⟨bytes, rfl⟩ := command_cases c
  · cases ht; exact .inl ⟨.inl rfl, rfl⟩
  · cases ht; exact .inr ⟨rfl, rfl⟩
  · by_cases hc : c = .resetCpu
    · subst hc; cases ht; exact .inl ⟨.inr rfl, rfl⟩
    · exact .inr (runCommand_cpu_pc_sp hcpu hc ht)
  · rw [runCommand_accessor_cpu hacc ht]; exact .inr ⟨rfl, rfl⟩
  · rw [runLoad_cpu ht]; exact .inr ⟨rfl, rfl⟩

/-- Settles O4: of all commands only the two resets of the core write `pc` and `sp`, and they leave it as new. -/
theorem onlyResetWritesPcAndSp : Obligations.OnlyResetWritesPcAndSp := by
  refine ⟨rfl, fun s t c cs hc ht => ?_⟩
  rw [step_cons hc] at ht
  exact runCommand_pc_sp (s := (s.setCommands cs).setPort none) ht

end Sys2Proof.Machine

namespace Sys2Proof.Machine

/-! ## The bytes of the ADD family (30_encoding.md R60, R61) -/

@[simp] theorem targetOfCode_codeOfTarget (t : ArithmeticTarget) : targetOfCode (codeOfTarget t) = t := by
  cases t <;> rfl

@[simp] theorem instr_add_target (i : Instr) : Instr.add i.target = i := by cases i <;> rfl

@[simp] theorem op6Field_encode (i : Instr) : op6Field (encode i) = addFamily := by cases i <;> rfl

@[simp] theorem tgtField_encode (i : Instr) : tgtField (encode i) = codeOfTarget i.target := by cases i <;> rfl

/-- The decoder reads the family and the target back from an instruction's byte. -/
@[simp] theorem decode_encode (i : Instr) : decode (encode i) = .instr i := by
  rw [decode, if_pos (op6Field_encode i), tgtField_encode, targetOfCode_codeOfTarget, instr_add_target]

end Sys2Proof.Machine

namespace Sys2Proof.Machine

/-! ## The whole effect of an ADD (41_cpu_add.md R100, R103 to R106) -/

/-- The wrapped sum as a number. -/
theorem toNat_addResult (a v : Byte) : (addResult a v).toNat = (a.toNat + v.toNat) % 256 := by
  simp [addResult]

/-- The wrapped sum is zero where its number is. -/
theorem addResult_eq_zero_iff (a v : Byte) : addResult a v = 0 ↔ (a.toNat + v.toNat) % 256 = 0 := by
  rw [← toNat_addResult]
  exact BitVec.toNat_inj.symm

/-- The four flags, each from the operands as numbers. -/
theorem addFlags_eq (a v : Byte) :
    addFlags a v =
      { zero := decide ((a.toNat + v.toNat) % 256 = 0), subtract := false
        halfCarry := decide (a.toNat % 16 + v.toNat % 16 > 0xF), carry := decide (a.toNat + v.toNat > 0xFF) } := by
  simp only [addFlags, addResult_eq_zero_iff]

/-- `r[F]` after an ADD: the byte of the flags, which the mask on `F` keeps. -/
theorem addedRegs_read_f (v : Byte) (rf : RegisterFile) :
    (addedRegs v rf).read .f = flagsToByte (addFlags (rf.read .a) v) :=
  maskF_flagsToByte _

/-- An ADD changes no register that can be its target. -/
theorem addedRegs_read_regOfTarget (v : Byte) (rf : RegisterFile) (t : ArithmeticTarget) :
    (addedRegs v rf).read (regOfTarget t) = rf.read (regOfTarget t) := by
  cases t <;> rfl

/-- Each instruction adds the register its target names. -/
theorem exec_addsToAccumulator (i : Instr) : AddsToAccumulator i (regOfTarget i.target) := by
  intro s
  refine ⟨_, exec_eq i s, toNat_addResult _ _, ?_, flagsToByte_low_nibble _,
    rfl, rfl, rfl, rfl, rfl, rfl, rfl, rfl, rfl, rfl, rfl, rfl⟩
  rw [State.reg, State.setRegs_cpu_regs, addedRegs_read_f, byteToFlags_flagsToByte]
  exact addFlags_eq _ _

/-- What an instruction leaves in `A`, `F` and its target, the values of its two operands being given. -/
theorem exec_of_operands {i : Instr} {s : State} {a v : Byte} (ha : s.reg .a = a)
    (hv : s.reg (regOfTarget i.target) = v) :
    ∃ t, exec i s = .next t ∧ t.reg .a = addResult a v ∧ t.reg .f = flagsToByte (addFlags a v) ∧
      t.reg (regOfTarget i.target) = v := by
  subst ha hv
  exact ⟨_, exec_eq i s, rfl, addedRegs_read_f _ _, addedRegs_read_regOfTarget _ _ _⟩

/-- An instruction executed twice adds its target twice: the first leaves the target as it was. -/
theorem exec_twice (i : Instr) (s : State) :
    ∃ t u, exec i s = .next t ∧ exec i t = .next u ∧
      (u.reg .a).toNat = ((s.reg .a).toNat + 2 * (s.reg (regOfTarget i.target)).toNat) % 256 := by
  obtain ⟨t, hst, hta, -, htv⟩ := exec_of_operands (i := i) (s := s) rfl rfl
  obtain ⟨u, htu, hua, -, -⟩ := exec_of_operands (i := i) hta htv
  refine ⟨t, u, hst, htu, ?_⟩
  rw [hua, toNat_addResult, toNat_addResult]
  omega

/-- Settles O12: the shared effect of the family at target `B`, once and twice. -/
theorem addABWritesSumAndFlags : Obligations.AddABWritesSumAndFlags :=
  ⟨rfl, decode_encode .addAB, op6Field_encode .addAB, tgtField_encode .addAB, exec_addsToAccumulator .addAB,
    exec_twice .addAB, fun _ ha hb => exec_of_operands (i := .addAB) ha hb⟩

/-- Settles O13: the shared effect of the family at target `C`. -/
theorem addACWritesSumAndFlags : Obligations.AddACWritesSumAndFlags :=
  ⟨rfl, decode_encode .addAC, op6Field_encode .addAC, tgtField_encode .addAC, exec_addsToAccumulator .addAC,
    fun _ ha hc => exec_of_operands (i := .addAC) ha hc⟩

/-- Settles O14: the shared effect of the family at target `D`. -/
theorem addADWritesSumAndFlags : Obligations.AddADWritesSumAndFlags :=
  ⟨rfl, decode_encode .addAD, op6Field_encode .addAD, tgtField_encode .addAD, exec_addsToAccumulator .addAD,
    fun _ ha hd => exec_of_operands (i := .addAD) ha hd⟩

/-- Settles O15: the shared effect of the family at target `E`. -/
theorem addAEWritesSumAndFlags : Obligations.AddAEWritesSumAndFlags :=
  ⟨rfl, decode_encode .addAE, op6Field_encode .addAE, tgtField_encode .addAE, exec_addsToAccumulator .addAE,
    fun _ ha he => exec_of_operands (i := .addAE) ha he⟩

end Sys2Proof.Machine

namespace Sys2Proof.Machine

/-! ## Accessors read the Cartridge Reader alone (42_cartridge_header.md R137) -/

/-- Settles O31: unloaded, the one response is NotLoaded; loaded, it is a function of the reader, since the
invariant puts every offset an accessor reads inside the buffer. -/
theorem accessorsArePure : Obligations.AccessorsArePure := by
  intro c r hacc hinv
  obtain ⟨-, -, hloaded⟩ := hinv
  cases hl : r.loaded with
  | false =>
    refine ⟨.raised .notLoaded, fun s hs => ?_⟩
    subst hs
    exact runCommand_accessor_unloaded hacc hl
  | true =>
    obtain ⟨hlen, -, -⟩ := hloaded hl
    refine ⟨accessorResponse c r, fun s hs => ?_⟩
    subst hs
    exact runCommand_accessor_loaded hacc hl hlen

end Sys2Proof.Machine

namespace Sys2Proof.Machine

/-! ## The trimmed title (42_cartridge_header.md R124) -/

theorem lastNonzero_le_length (bs : List Byte) : lastNonzero bs ≤ bs.length := by
  induction bs with
  | nil => exact Nat.le_refl 0
  | cons b bs ih =>
    rw [lastNonzero, List.length_cons]
    split
    · omega
    · split <;> omega

/-- From `lastNonzero` on every byte is 0x00. -/
theorem getElem_eq_zero_of_lastNonzero_le {bs : List Byte} {j : Nat} (hj : j < bs.length)
    (hle : lastNonzero bs ≤ j) : bs[j] = 0x00 := by
  induction bs generalizing j with
  | nil => exact absurd hj (Nat.not_lt_zero j)
  | cons b bs ih =>
    rw [lastNonzero] at hle
    rw [List.length_cons] at hj
    cases j with
    | zero =>
      split at hle
      · omega
      · split at hle
        next hb => exact hb
        next => omega
    | succ j => exact ih (by omega) (by split at hle <;> omega)

/-- The byte before `lastNonzero` is not 0x00. -/
theorem getElem_ne_zero_of_succ_eq_lastNonzero {bs : List Byte} {j : Nat} (hj : j < bs.length)
    (heq : j + 1 = lastNonzero bs) : bs[j] ≠ 0x00 := by
  induction bs generalizing j with
  | nil => exact absurd hj (Nat.not_lt_zero j)
  | cons b bs ih =>
    rw [lastNonzero] at heq
    rw [List.length_cons] at hj
    cases j with
    | zero =>
      split at heq
      · omega
      · split at heq
        next => omega
        next hb => exact hb
    | succ j =>
      split at heq
      · exact ih (by omega) (by omega)
      · split at heq <;> omega

/-- On a loaded reader `title` answers the trimmed cached title, and writes no state. -/
theorem runCommand_title_loaded {s : State} (hl : s.cart.loaded = true) :
    runCommand .title s = .next (s.setPort (some (.ok (.bytes (trimTitle s.cart.cTitle.toList))))) :=
  afterLoad_loaded hl _

/-- Settles O35: the number of bytes kept is `lastNonzero` of the cached title, and its two properties pin it. -/
theorem titleDropsTrailingZeros : Obligations.TitleDropsTrailingZeros := by
  refine ⟨fun s hl => runCommand_accessor_unloaded rfl hl, fun s hl => ?_, by decide⟩
  have hlen : s.cart.cTitle.toList.length = 15 := Vector.length_toList
  refine ⟨lastNonzero s.cart.cTitle.toList, (lastNonzero_le_length _).trans_eq hlen, runCommand_title_loaded hl,
    fun j hj => ?_, fun j hj => ?_⟩
  · exact getElem_eq_zero_of_lastNonzero_le (j.isLt.trans_eq hlen.symm) hj
  · exact getElem_ne_zero_of_succ_eq_lastNonzero (j.isLt.trans_eq hlen.symm) hj

end Sys2Proof.Machine

namespace Sys2Proof.Machine

/-! ## The RAM size (42_cartridge_header.md R129) -/

/-- The four rows of R129 are entries of the table. -/
theorem ramTable_of_row {row : Byte × Byte} (h : row ∈ [(0, 0), (1, 2), (2, 8), (3, 32)]) :
    ramTable row.1 = some row.2 := by
  simp only [List.mem_cons, List.not_mem_nil, or_false] at h
  obtain rfl | rfl | rfl | rfl := h <;> rfl

/-- The table ends at code 3. -/
theorem ramTable_eq_none {code : Byte} (h : 3 < code.toNat) : ramTable code = none := by
  have hne : ∀ n : Byte, n.toNat ≤ 3 → code ≠ n := fun n hn hc => by subst hc; omega
  rw [ramTable, if_neg (hne 0 (by decide)), if_neg (hne 1 (by decide)), if_neg (hne 2 (by decide)),
    if_neg (hne 3 (by decide))]

/-- On a loaded reader `ram_size` answers what the table holds for the cached code, and writes no state. -/
theorem runCommand_ramSize_of_some {s : State} {kb : Byte} (hl : s.cart.loaded = true)
    (hkb : ramTable s.cart.cRam = some kb) :
    runCommand .ramSize s = .next (s.setPort (some (.ok (.ramKilobytes kb)))) := by
  rw [runCommand, runRamSize, afterLoad_loaded hl, hkb]
  rfl

/-- Where the table holds nothing it raises UnsupportedRamSize with the code, and writes no state. -/
theorem runCommand_ramSize_of_none {s : State} (hl : s.cart.loaded = true) (hkb : ramTable s.cart.cRam = none) :
    runCommand .ramSize s = .next (s.setPort (some (.raised (.unsupportedRamSize s.cart.cRam)))) := by
  rw [runCommand, runRamSize, afterLoad_loaded hl, hkb]
  rfl

/-- Settles O37: each row is an entry of the RAM-size table, which has none above code 3. -/
theorem ramSizeFollowsItsTable : Obligations.RamSizeFollowsItsTable := by
  refine ⟨fun s hl => runCommand_accessor_unloaded rfl hl, fun row hrow s hl hcode => ?_, fun s hl hcode => ?_⟩
  · have hkb : ramTable s.cart.cRam = some row.2 := hcode ▸ ramTable_of_row hrow
    exact runCommand_ramSize_of_some hl hkb
  · exact runCommand_ramSize_of_none hl (ramTable_eq_none hcode)

end Sys2Proof.Machine

namespace Sys2Proof.Machine

/-! ## The stored checksum (42_cartridge_header.md R133) -/

/-- A held image has at least `MIN_LEN` bytes in the buffer. -/
theorem State.HoldsImage.minLen_le {s : State} {image : List Byte} (h : s.HoldsImage image) :
    Config.minLen ≤ s.cart.content.len := by
  obtain ⟨⟨-, -, hloaded⟩, hl, -⟩ := h
  obtain ⟨hlen, -, -⟩ := hloaded hl
  exact hlen

/-- Every header byte of a held image is the buffer's byte at its offset. -/
theorem State.HoldsImage.getElem?_eq {s : State} {image : List Byte} (h : s.HoldsImage image) {i : Nat}
    (hi : i < Config.minLen) : image[i]? = some (cellAt s.cart.content.cells i) := by
  have hlt := hi.trans_le h.minLen_le
  obtain ⟨-, -, hbytes⟩ := h
  rw [← hbytes i, Memory.byte?_of_lt _ hlt]

/-- On a reader that holds an image an accessor answers from the reader alone. -/
theorem State.HoldsImage.runCommand_accessor {s : State} {image : List Byte} (h : s.HoldsImage image) {c : Command}
    (hacc : c.isAccessor = true) : runCommand c s = .next (s.setPort (some (accessorResponse c s.cart))) := by
  have hlen := h.minLen_le
  obtain ⟨-, hl, -⟩ := h
  exact runCommand_accessor_loaded hacc hl hlen

/-- Settles O39: the byte answered is the buffer's at 0x14D, which is the image's. -/
theorem checksumAnswersTheStoredByte : Obligations.ChecksumAnswersTheStoredByte := by
  refine ⟨fun s hl => runCommand_accessor_unloaded rfl hl, fun s image himg => ?_⟩
  have hbyte : image[0x14D]? = some (cellAt s.cart.content.cells 0x14D) := himg.getElem?_eq (by decide)
  exact ⟨_, hbyte, himg.runCommand_accessor rfl⟩

end Sys2Proof.Machine

namespace Sys2Proof.Machine

/-! ## The two ends of a load into an empty reader (42_cartridge_header.md R121, 60_exceptions.md R154) -/

/-- An image shorter than `MIN_LEN` is not above `MAX_LEN` either, so TruncatedHeader is what it raises. -/
theorem step_load_short {s : State} {bytes : List Byte} {cs : List Command} (hc : s.commands = .load bytes :: cs)
    (hl : s.cart.loaded = false) (hlen : bytes.length < Config.minLen) :
    step s = .next ((s.setCommands cs).setPort (some (.raised (.truncatedHeader bytes.length)))) := by
  have hmax : bytes.length ≤ Config.maxLen := hlen.le.trans (Nat.le_add_left _ _)
  have hl' : ¬ ((s.setCommands cs).setPort none).cart.loaded = true := Bool.eq_false_iff.mp hl
  rw [step_cons hc, runCommand, runLoad_eq, if_neg hmax.not_gt, if_neg hl', if_pos hlen, raise_eq]
  rfl

/-- An image of a legal length is stored. -/
theorem step_load_full {s : State} {bytes : List Byte} {cs : List Command} (hc : s.commands = .load bytes :: cs)
    (hl : s.cart.loaded = false) (hmin : Config.minLen ≤ bytes.length) (hmax : bytes.length ≤ Config.maxLen) :
    step s = .next (((s.setCommands cs).setCart (loadedReader bytes)).setPort (some (.ok .none))) := by
  have hl' : ¬ ((s.setCommands cs).setPort none).cart.loaded = true := Bool.eq_false_iff.mp hl
  rw [step_cons hc, runCommand, runLoad_eq, if_neg hmax.not_gt, if_neg hl', if_neg hmin.not_gt, respond_eq]
  rfl

/-- Settles O28: a short load leaves the reader empty, so the full load after it finds an empty reader. -/
theorem shortImageIsTruncatedHeader : Obligations.ShortImageIsTruncatedHeader := by
  intro s bytes cs hc hl hlen
  refine ⟨step_load_short hc hl hlen, fun image ds hds hmin hmax => ?_⟩
  exact ⟨_, step_load_full hds hl hmin hmax, rfl, rfl⟩

end Sys2Proof.Machine

namespace Sys2Proof.Machine

/-! ## Every command as a function of the two components (00_scope.md R3, 20_memory.md section 4)

`cpuEffect` says what a command of the CPU Core does; `cartEffect` says the same of the Cartridge Reader, and
`State.after` puts the two together with the reset input, for every command at once. -/

/-- What a command of the Cartridge Reader does to it, and what it answers. -/
def cartEffect (c : Command) (r : CartridgeReader) : CartridgeReader × Option Response :=
  match c with
  | .resetCartridge => (CartridgeReader.new, none)
  | .load bytes =>
    if r.loaded then (r, some (.raised .alreadyLoaded))
    else if bytes.length < Config.minLen then (r, some (.raised (.truncatedHeader bytes.length)))
    else (loadedReader bytes, some (.ok .none))
  | c =>
    (r, if c.isAccessor then some (if r.loaded then accessorResponse c r else .raised .notLoaded) else none)

/-- The CPU Core after a command of either component, or after the reset input. -/
def cpuAfter (c : Command) (u : CpuCore) : CpuCore := if c = .reset then CpuCore.new else (cpuEffect c u).1

/-- The Cartridge Reader after a command of either component, or after the reset input. -/
def cartAfter (c : Command) (r : CartridgeReader) : CartridgeReader :=
  if c = .reset then CartridgeReader.new else (cartEffect c r).1

/-- The state after a command. -/
def State.after (s : State) (c : Command) : State :=
  { cpu := cpuAfter c s.cpu
    cart := cartAfter c s.cart
    commands := s.commands
    port := if c.toCpu then (cpuEffect c s.cpu).2 else (cartEffect c s.cart).2 }

theorem cartEffect_accessor {c : Command} (h : c.isAccessor = true) (r : CartridgeReader) :
    cartEffect c r = (r, some (if r.loaded then accessorResponse c r else .raised .notLoaded)) := by
  cases c with
  | resetCartridge => cases h
  | load bytes => cases h
  | _ => exact congrArg (Prod.mk r) (if_pos h)

/-- A command of the Cartridge Reader is its reset, a load or an accessor. -/
theorem toCart_cases {c : Command} (h : c.toCart = true) :
    c = .resetCartridge ∨ c.isAccessor = true ∨ ∃ bytes, c = .load bytes := by
  cases c <;> cases h <;> simp [Command.isAccessor]

/-- An accessor answers from the reader alone, loaded or not. -/
theorem runCommand_accessor {c : Command} (h : c.isAccessor = true) {s : State} (hinv : s.cart.Inv) :
    runCommand c s =
      .next (s.setPort (some (if s.cart.loaded then accessorResponse c s.cart else .raised .notLoaded))) := by
  obtain ⟨-, -, hloaded⟩ := hinv
  cases hl : s.cart.loaded with
  | false => exact runCommand_accessor_unloaded h hl
  | true =>
    obtain ⟨hlen, -, -⟩ := hloaded hl
    exact runCommand_accessor_loaded h hl hlen

/-- A load within the operand's domain never stops. -/
theorem runLoad_of_le {bytes : List Byte} (hmax : bytes.length ≤ Config.maxLen) (s : State) :
    runLoad bytes s =
      .next ((s.setCart (cartEffect (.load bytes) s.cart).1).setPort (cartEffect (.load bytes) s.cart).2) := by
  rw [runLoad_eq, if_neg hmax.not_gt, cartEffect]
  split
  · rfl
  · split <;> rfl

/-- A command of the Cartridge Reader, its operand in its domain and the reader's invariant given, never stops, reads
and writes the Cartridge Reader alone, and answers from it alone. -/
theorem runCommand_toCart {c : Command} (h : c.toCart = true) (hwf : c.wf = true) {s : State} (hinv : s.cart.Inv) :
    runCommand c s = .next ((s.setCart (cartEffect c s.cart).1).setPort (cartEffect c s.cart).2) := by
  obtain rfl | hacc | ⟨bytes, rfl⟩ := toCart_cases h
  · rfl
  · rw [cartEffect_accessor hacc]; exact runCommand_accessor hacc hinv
  · exact runLoad_of_le (of_decide_eq_true hwf) s

theorem cpuAfter_toCpu {c : Command} (h : c.toCpu = true) (u : CpuCore) : cpuAfter c u = (cpuEffect c u).1 :=
  if_neg (by rintro rfl; cases h)

/-- A command of the Cartridge Reader leaves the CPU Core as it was. -/
theorem cpuAfter_toCart {c : Command} (h : c.toCart = true) (u : CpuCore) : cpuAfter c u = u := by
  cases c <;> cases h <;> rfl

theorem cartAfter_toCart {c : Command} (h : c.toCart = true) (r : CartridgeReader) :
    cartAfter c r = (cartEffect c r).1 :=
  if_neg (by rintro rfl; cases h)

/-- A command of the CPU Core leaves the Cartridge Reader as it was. -/
theorem cartAfter_toCpu {c : Command} (h : c.toCpu = true) (r : CartridgeReader) : cartAfter c r = r := by
  cases c <;> cases h <;> rfl

theorem toCpu_eq_false_of_toCart {c : Command} (h : c.toCart = true) : c.toCpu = false := by
  cases c <;> cases h <;> rfl

/-- Every command is the reset input or belongs to one of the two components. -/
theorem component_cases (c : Command) : c = .reset ∨ c.toCpu = true ∨ c.toCart = true := by
  cases c <;> simp [Command.toCpu, Command.toCart]

/-- Every command, its operand in its domain and the reader's invariant given, arrives at the state `State.after`. -/
theorem runCommand_eq_after {c : Command} (hwf : c.wf = true) {s : State} (hinv : s.cart.Inv) :
    runCommand c s = .next (s.after c) := by
  obtain rfl | hcpu | hcart := component_cases c
  · rfl
  · rw [runCommand_cpu hcpu, State.after, cpuAfter_toCpu hcpu, cartAfter_toCpu hcpu, if_pos hcpu]
    rfl
  · rw [runCommand_toCart hcart hwf hinv, State.after, cpuAfter_toCart hcart, cartAfter_toCart hcart,
      toCpu_eq_false_of_toCart hcart]
    rfl

end Sys2Proof.Machine

namespace Sys2Proof.Machine

/-! ## The one command without a meaning (42_cartridge_header.md R121; log entry 5) -/

/-- A command's operand is outside its domain exactly where it is a load of more than `MAX_LEN` bytes. -/
theorem wf_eq_false_iff (c : Command) : c.wf = false ↔ ∃ bytes, c = .load bytes ∧ Config.maxLen < bytes.length := by
  cases c with
  | load bytes => simp [Command.wf]
  | executeTyped i => cases i <;> simp [Command.wf, Instr.wf]
  | _ => simp [Command.wf]

/-- A load is refused exactly where its image is longer than `MAX_LEN`. -/
theorem runLoad_eq_refused_iff (bytes : List Byte) (s : State) (r : Refusal) :
    runLoad bytes s = .refused r ↔ Config.maxLen < bytes.length ∧ r = .imageTooLong bytes.length := by
  by_cases hmax : Config.maxLen < bytes.length
  · rw [runLoad_eq, if_pos hmax, Host.Outcome.refused.injEq]
    exact ⟨fun h => ⟨hmax, h.symm⟩, fun h => h.2.symm⟩
  · rw [runLoad_of_le (Nat.le_of_not_lt hmax)]
    exact ⟨nofun, fun h => absurd h.1 hmax⟩

/-- An accessor is never refused, in any state. -/
theorem runCommand_accessor_ne_refused {c : Command} (h : c.isAccessor = true) (s : State) (r : Refusal) :
    runCommand c s ≠ .refused r := by
  obtain ⟨a, ha⟩ := runCommand_accessor_readsOnly h s.cart
  rw [ha s rfl]
  cases a <;> exact nofun

/-- Settles O47: every command but a load never refuses, and a load does so in the first of its tests. -/
theorem onlyOverlongLoadIsRefused : Obligations.OnlyOverlongLoadIsRefused := by
  intro c s r
  constructor
  · intro h
    obtain rfl | rfl | hcpu | hacc | ⟨bytes, rfl⟩ := command_cases c
    · cases h
    · cases h
    · rw [runCommand_cpu hcpu] at h; cases h
    · exact absurd h (runCommand_accessor_ne_refused hacc s r)
    · exact ⟨bytes, rfl, (runLoad_eq_refused_iff bytes s r).mp h⟩
  · rintro ⟨bytes, rfl, h⟩
    exact (runLoad_eq_refused_iff bytes s r).mpr h

/-- A command that answers a next state has its operand in its domain. -/
theorem wf_of_runCommand_next {c : Command} {s t : State} (h : runCommand c s = .next t) : c.wf = true := by
  rw [← Bool.not_eq_false, wf_eq_false_iff]
  rintro ⟨bytes, rfl, hmax⟩
  have href := (runLoad_eq_refused_iff bytes s _).mpr ⟨hmax, rfl⟩
  cases href.symm.trans h

end Sys2Proof.Machine

namespace Sys2Proof.Machine

/-! ## The invariant (10_state.md sections 1 to 3) -/

theorem RegisterFile.new_f_low : RegisterFile.new.f &&& 0x0F = 0 := by decide

theorem CpuCore.new_inv : CpuCore.new.Inv := ⟨RegisterFile.new_f_low, rfl, rfl⟩

theorem CartridgeReader.new_inv : CartridgeReader.new.Inv := ⟨Memory.empty_wf, fun _ => rfl, nofun⟩

/-- Settles O44: each of the two components has its invariant as `new()` leaves it. -/
theorem invariantHoldsAtReset : Obligations.InvariantHoldsAtReset := ⟨CpuCore.new_inv, CartridgeReader.new_inv⟩

theorem addedRegs_f_low (v : Byte) (rf : RegisterFile) : (addedRegs v rf).f &&& 0x0F = 0 := flagsToByte_low_nibble _

/-- The low nibble of `F` stays zero under every command of the CPU Core. -/
theorem cpuEffect_keeps_f_low (c : Command) {u : CpuCore} (h : u.regs.f &&& 0x0F = 0) :
    (cpuEffect c u).1.regs.f &&& 0x0F = 0 := by
  cases c with
  | resetCpu => exact RegisterFile.new_f_low
  | writeReg rsel v => exact RegisterFile.write_keeps_f_low _ _ _ h
  | setPair psel v => exact RegisterFile.setPair_keeps_f_low _ _ _ h
  | add v => exact flagsToByte_low_nibble _
  | executeCycle op =>
    cases hd : decode op with
    | instr i => simpa only [cpuEffect, hd] using addedRegs_f_low _ _
    | unknown x => simpa only [cpuEffect, hd] using h
  | executeTyped i => exact addedRegs_f_low _ _
  | _ => exact h

theorem cpuEffect_keeps_inv (c : Command) {u : CpuCore} (h : u.Inv) : (cpuEffect c u).1.Inv := by
  obtain ⟨hf, hpc, hsp⟩ := h
  by_cases hc : c = .resetCpu
  · subst hc; exact CpuCore.new_inv
  · obtain ⟨hpc', hsp'⟩ := cpuEffect_pc_sp hc u
    exact ⟨cpuEffect_keeps_f_low c hf, hpc'.trans hpc, hsp'.trans hsp⟩

theorem cpuAfter_keeps_inv (c : Command) {u : CpuCore} (h : u.Inv) : (cpuAfter c u).Inv := by
  rw [cpuAfter]
  split
  · exact CpuCore.new_inv
  · exact cpuEffect_keeps_inv c h

theorem cartEffect_keeps_inv {c : Command} (hwf : c.wf = true) {r : CartridgeReader} (h : r.Inv) :
    (cartEffect c r).1.Inv := by
  cases c with
  | resetCartridge => exact CartridgeReader.new_inv
  | load bytes =>
    rw [cartEffect]
    split
    · exact h
    · split
      next => exact h
      next hmin => exact loadedReader_inv (Nat.le_of_not_lt hmin) (of_decide_eq_true hwf)
  | _ => exact h

theorem cartAfter_keeps_inv {c : Command} (hwf : c.wf = true) {r : CartridgeReader} (h : r.Inv) :
    (cartAfter c r).Inv := by
  rw [cartAfter]
  split
  · exact CartridgeReader.new_inv
  · exact cartEffect_keeps_inv hwf h

/-- Each component keeps its own part of the invariant. -/
theorem State.after_inv {c : Command} (hwf : c.wf = true) {s : State} (h : s.Inv) : (s.after c).Inv :=
  h.imp (cpuAfter_keeps_inv c) (cartAfter_keeps_inv hwf)

/-- Settles O45: a step that answers a next state took no command, or one whose operand is in its domain; then the
next state is `State.after` of it. -/
theorem everyStepKeepsTheInvariant : Obligations.EveryStepKeepsTheInvariant := by
  intro s t hinv ht
  cases hc : s.commands with
  | nil => rw [step_nil hc] at ht; cases ht; exact hinv
  | cons c cs =>
    rw [step_cons hc] at ht
    have hinv' : ((s.setCommands cs).setPort none).Inv := hinv
    have hwf := wf_of_runCommand_next ht
    rw [runCommand_eq_after hwf hinv'.right] at ht
    cases ht
    exact State.after_inv hwf hinv'

end Sys2Proof.Machine

namespace Sys2Proof.Machine

/-! ## Every command completes (70_reset_and_hazards.md section 4, 92_eei_decisions.md D28) -/

/-- A step whose oldest command has its operand in its domain goes on. -/
theorem step_eq_after {s : State} {c : Command} {cs : List Command} (hinv : s.Inv) (hc : s.commands = c :: cs)
    (hwf : c.wf = true) : step s = .next ((s.setCommands cs).after c) := by
  obtain ⟨-, hcart⟩ := hinv
  rw [step_cons hc]
  exact runCommand_eq_after (s := (s.setCommands cs).setPort none) hwf hcart

/-- A command of the CPU Core, but its reset, answers. -/
theorem cpuEffect_answers {c : Command} (hcpu : c.toCpu = true) (h : c.isReset = false) (u : CpuCore) :
    ∃ p, (cpuEffect c u).2 = some p := by
  cases c with
  | executeCycle op => cases hd : decode op <;> simp [cpuEffect, hd]
  | _ => cases hcpu <;> cases h <;> exact ⟨_, rfl⟩

/-- A command of the Cartridge Reader, but its reset, answers. -/
theorem cartEffect_answers {c : Command} (hcart : c.toCart = true) (h : c.isReset = false) (r : CartridgeReader) :
    ∃ p, (cartEffect c r).2 = some p := by
  obtain rfl | hacc | ⟨bytes, rfl⟩ := toCart_cases hcart
  · cases h
  · exact ⟨_, congrArg Prod.snd (cartEffect_accessor hacc r)⟩
  · rw [cartEffect]
    split
    · exact ⟨_, rfl⟩
    · split <;> exact ⟨_, rfl⟩

/-- A reset answers nothing. -/
theorem State.after_port_of_isReset {c : Command} (h : c.isReset = true) (s : State) : (s.after c).port = none := by
  cases c <;> cases h <;> rfl

/-- Every other command answers. -/
theorem State.after_port_of_not_isReset {c : Command} (h : c.isReset = false) (s : State) :
    ∃ p, (s.after c).port = some p := by
  rw [State.after]
  obtain rfl | hcpu | hcart := component_cases c
  · cases h
  · rw [if_pos hcpu]; exact cpuEffect_answers hcpu h s.cpu
  · rw [toCpu_eq_false_of_toCart hcart]; exact cartEffect_answers hcart h s.cart

/-- Settles O46: the state after the command is `State.after`, and its response is OK or an exception. -/
theorem everyCommandCompletes : Obligations.EveryCommandCompletes := by
  intro s c cs hinv hc hwf
  refine ⟨_, step_eq_after hinv hc hwf, rfl, fun h => State.after_port_of_isReset h _, fun h => ?_⟩
  obtain ⟨p, hp⟩ := State.after_port_of_not_isReset h (s.setCommands cs)
  cases p with
  | ok r => exact .inl ⟨r, hp⟩
  | raised e => exact .inr ⟨e, hp⟩

/-! ## Runs (00_scope.md R6, 20_memory.md R51) -/

/-- A machine takes one step and goes on from where it arrives. -/
theorem run_succ_of_step (M : Host.Core) {s t : M.State} (h : M.step s = .next t) (k : Nat) :
    M.run (k + 1) s = M.run k t := by
  rw [Host.Core.run, h]

theorem run_succ {s t : State} (h : step s = .next t) (k : Nat) :
    Sys2Proof.core.run (k + 1) s = Sys2Proof.core.run k t :=
  run_succ_of_step Sys2Proof.core h k

/-- From a state with the invariant whose commands have operands in their domains, one step goes on, and keeps both. -/
theorem step_progress {s : State} (hinv : s.Inv) (hwf : s.CommandsWf) :
    ∃ t, step s = .next t ∧ t.Inv ∧ t.CommandsWf ∧ t.commands = s.commands.tail ∧
      t.cpu = (s.commands.take 1).foldl (fun u c => cpuAfter c u) s.cpu ∧
      t.cart = (s.commands.take 1).foldl (fun r c => cartAfter c r) s.cart := by
  cases hc : s.commands with
  | nil =>
    exact ⟨_, step_nil hc, hinv, hwf, hc, rfl, rfl⟩
  | cons c cs =>
    rw [State.CommandsWf, hc, List.forall_mem_cons] at hwf
    obtain ⟨hcwf, hcswf⟩ := hwf
    exact ⟨_, step_eq_after hinv hc hcwf, State.after_inv hcwf hinv, hcswf, rfl, rfl, rfl⟩

/-- After `k` steps the first `k` commands have been taken, and each component is what they make of it in turn. -/
theorem run_progress (k : Nat) {s : State} (hinv : s.Inv) (hwf : s.CommandsWf) :
    ∃ t, Sys2Proof.core.run k s = .next t ∧ t.Inv ∧ t.CommandsWf ∧ t.commands = s.commands.drop k ∧
      t.cpu = (s.commands.take k).foldl (fun u c => cpuAfter c u) s.cpu ∧
      t.cart = (s.commands.take k).foldl (fun r c => cartAfter c r) s.cart := by
  induction k generalizing s with
  | zero => exact ⟨s, rfl, hinv, hwf, rfl, rfl, rfl⟩
  | succ k ih =>
    obtain ⟨t, hst, htinv, htwf, htc, htcpu, htcart⟩ := step_progress hinv hwf
    obtain ⟨u, htu, huinv, huwf, huc, hucpu, hucart⟩ := ih htinv htwf
    have htake : s.commands.take (k + 1) = s.commands.take 1 ++ t.commands.take k := by
      rw [htc, ← List.drop_one, ← List.take_add, Nat.add_comm]
    refine ⟨u, (run_succ hst k).trans htu, huinv, huwf, ?_, ?_, ?_⟩
    · rw [huc, htc, ← List.drop_one, List.drop_drop, Nat.add_comm]
    · rw [hucpu, htcpu, htake, List.foldl_append]
    · rw [hucart, htcart, htake, List.foldl_append]

/-- Settles O48: a run of any length goes on, one command a step. -/
theorem noRunEverStops : Obligations.NoRunEverStops := by
  intro k s hinv hwf
  obtain ⟨t, hrun, htinv, htwf, htc, -, -⟩ := run_progress k hinv hwf
  exact ⟨t, hrun, htinv, htwf, htc⟩

end Sys2Proof.Machine

namespace Sys2Proof.Machine

/-! ## The decoder and the encoder (30_encoding.md sections 1, 2 and 4) -/

@[simp] theorem codeOfTarget_targetOfCode (t : BitVec 2) : codeOfTarget (targetOfCode t) = t := by
  revert t; decide

@[simp] theorem target_instr_add (t : ArithmeticTarget) : (Instr.add t).target = t := by cases t <;> rfl

/-- A byte is its two fields, one behind the other. -/
theorem op6Field_append_tgtField (op : Byte) : (op6Field op ++ tgtField op : Byte) = op :=
  BitVec.extractLsb'_append_extractLsb' (w := 6) (len := 2)

/-- A byte that decodes is the byte of its instruction: the fields that the decoder reads are the whole of it. -/
theorem eq_encode_of_decode {op : Byte} {i : Instr} (h : decode op = .instr i) : op = encode i := by
  rw [decode] at h
  split at h
  next hfam =>
    cases h
    rw [encode, target_instr_add, codeOfTarget_targetOfCode, ← hfam, op6Field_append_tgtField]
  next => cases h

/-- What the decoder answers as Unknown is the byte it was given. -/
theorem eq_of_decode_eq_unknown {op x : Byte} (h : decode op = .unknown x) : x = op := by
  rw [decode] at h
  split at h
  · cases h
  · cases h; rfl

/-- Settles O22: the decoder's two fields are the encoder's, and the family is the four bytes 0x80 to 0x83. -/
theorem decodeAndEncodeAgree : Obligations.DecodeAndEncodeAgree := by
  have hwf : ∀ i : Instr, i.wf = true := fun i => by cases i <;> rfl
  exact ⟨fun i => ⟨hwf i, decode_encode i⟩, fun _ _ => eq_encode_of_decode,
    fun op => (decode_eq_unknown_iff op).symm, fun _ _ => eq_of_decode_eq_unknown⟩

/-- Settles O21: ten closed bytes. -/
theorem decodeReadsTheWrittenWords : Obligations.DecodeReadsTheWrittenWords := by
  unfold Obligations.DecodeReadsTheWrittenWords
  decide

end Sys2Proof.Machine

namespace Sys2Proof.Machine

/-! ## The laws of the 8-bit addition (41_cpu_add.md sections 2 and 5) -/

theorem addResult_eq_add (a v : Byte) : addResult a v = a + v := by
  apply BitVec.eq_of_toNat_eq
  rw [toNat_addResult, BitVec.toNat_add]

theorem addResult_comm (a v : Byte) : addResult a v = addResult v a := by
  simp only [addResult_eq_add, BitVec.add_comm]

theorem addFlags_comm (a v : Byte) : addFlags a v = addFlags v a := by
  simp only [addFlags_eq, Nat.add_comm]

/-- The wrapped sum and the carry are the exact sum. -/
theorem toNat_addResult_add_carry (a v : Byte) :
    (addResult a v).toNat + 256 * (if (addFlags a v).carry then 1 else 0) = a.toNat + v.toNat := by
  have ha := a.isLt
  have hv := v.isLt
  simp only [toNat_addResult, addFlags, decide_eq_true_eq]
  split <;> omega

/-- Half-carry is the carry into bit 4, which the sum's bit 4 shows against those of the operands. -/
theorem addFlags_halfCarry (a v : Byte) :
    (addFlags a v).halfCarry = (a ^^^ v ^^^ addResult a v).getLsbD 4 := by
  have hsum : (addResult a v).getLsbD 4 = (a.getLsbD 4 ^^ (v.getLsbD 4 ^^ BitVec.carry 4 a v false)) := by
    rw [addResult_eq_add, BitVec.getLsbD_add (by decide)]
  have hcarry : BitVec.carry 4 a v false = (addFlags a v).halfCarry := by
    simp only [BitVec.carry, addFlags, Bool.toNat_false, Nat.add_zero, decide_eq_decide]
    omega
  rw [BitVec.getLsbD_xor, BitVec.getLsbD_xor, hsum, hcarry, ← Bool.xor_assoc (a.getLsbD 4), ← Bool.xor_assoc,
    Bool.xor_self, Bool.false_xor]

/-- Settles O19: the sum is exact with its carry, and the half-carry is the carry into bit 4. -/
theorem additionLaws : Obligations.AdditionLaws := fun a v =>
  ⟨toNat_addResult_add_carry a v, addFlags_halfCarry a v, rfl, rfl, addResult_comm a v, addFlags_comm a v⟩

/-! ## The frame of the ADD family and of the primitive `add` (41_cpu_add.md sections 2, 4 and 5) -/

/-- An ADD changes no register but `A` and `F`. -/
theorem addedRegs_read_ne (v : Byte) (rf : RegisterFile) {x : Reg} (ha : x ≠ .a) (hf : x ≠ .f) :
    (addedRegs v rf).read x = rf.read x := by
  cases x with
  | a => exact absurd rfl ha
  | f => exact absurd rfl hf
  | _ => rfl

/-- Settles O16: an instruction writes the Register File alone, and of it `A` and `F` alone. -/
theorem addFamilyFrame : Obligations.AddFamilyFrame := by
  intro i s t ht
  rw [exec_eq] at ht
  cases ht
  exact ⟨fun _ ha hf => addedRegs_read_ne _ _ ha hf, rfl, rfl, rfl, rfl, fun _ => rfl, rfl, rfl⟩

/-- Settles O17: `A` and `F` after an instruction are functions of its two operands. -/
theorem addReadsOnlyItsTwoOperands : Obligations.AddReadsOnlyItsTwoOperands := by
  intro i s u ha hv
  obtain ⟨s', hs, hsa, hsf, -⟩ := exec_of_operands ha hv
  obtain ⟨u', hu, hua, huf, -⟩ := exec_of_operands (i := i) (s := u) rfl rfl
  exact ⟨s', u', hs, hu, hsa.trans hua.symm, hsf.trans huf.symm⟩

/-- `r[F]` after a record of flags is stored: its byte, which the mask on `F` keeps. -/
@[simp] theorem State.reg_f_setFlags (s : State) (fl : Flags) : (s.setFlags fl).reg .f = flagsToByte fl := by
  simp [State.reg, RegisterFile.read_write_self]

theorem State.reg_setFlags_ne (s : State) (fl : Flags) {x : Reg} (h : x ≠ .f) : (s.setFlags fl).reg x = s.reg x :=
  RegisterFile.read_write_ne _ _ h

/-- The host command stores the flags and answers the sum. -/
theorem runCommand_add (v : Byte) (s : State) :
    runCommand (.add v) s =
      .next ((s.setFlags (addFlags (s.reg .a) v)).setPort (some (.ok (.byte (addResult (s.reg .a) v))))) := rfl

/-- Settles O18: `add` stores the flags of the sum it answers, and does not write `A`. -/
theorem addPrimitiveWritesOnlyFlags : Obligations.AddPrimitiveWritesOnlyFlags := by
  intro v s
  refine ⟨_, _, runCommand_add v s, rfl, toNat_addResult _ _, ?_, fun x hx => State.reg_setFlags_ne s _ hx,
    rfl, rfl, rfl, rfl, rfl⟩
  rw [State.reg_setPort, State.reg_f_setFlags, byteToFlags_flagsToByte]
  rfl

/-! ## The bytes that `F` holds after an add (41_cpu_add.md R101) -/

/-- A zero sum with a half-carry has a carry: its low nibbles are not both zero, so the exact sum is 256. -/
theorem addFlags_carry_of_zero_of_halfCarry {a v : Byte} (hz : (addFlags a v).zero = true)
    (hh : (addFlags a v).halfCarry = true) : (addFlags a v).carry = true := by
  have ha := a.isLt
  have hv := v.isLt
  simp only [addFlags_eq, decide_eq_true_eq] at hz hh ⊢
  omega

/-- A record without subtract, in which zero with half-carry implies carry, has one of the seven bytes. -/
theorem flagsToByte_mem_addFlagBytes {fl : Flags} (hn : fl.subtract = false)
    (hc : fl.zero = true → fl.halfCarry = true → fl.carry = true) : flagsToByte fl ∈ addFlagBytes := by
  obtain ⟨z, n, h, c⟩ := fl
  revert z n h c; decide

theorem flagsToByte_addFlags_mem (a v : Byte) : flagsToByte (addFlags a v) ∈ addFlagBytes :=
  flagsToByte_mem_addFlagBytes rfl addFlags_carry_of_zero_of_halfCarry

/-- Each of the seven bytes is that of some sum. -/
theorem exists_flagsToByte_addFlags {x : Byte} (h : x ∈ addFlagBytes) : ∃ a v, flagsToByte (addFlags a v) = x := by
  simp only [addFlagBytes, List.mem_cons, List.not_mem_nil, or_false] at h
  obtain rfl | rfl | rfl | rfl | rfl | rfl | rfl := h
  · exact ⟨0x01, 0x01, by decide⟩
  · exact ⟨0xF0, 0x20, by decide⟩
  · exact ⟨0x0F, 0x01, by decide⟩
  · exact ⟨0xFF, 0xFF, by decide⟩
  · exact ⟨0x00, 0x00, by decide⟩
  · exact ⟨0x80, 0x80, by decide⟩
  · exact ⟨0xFF, 0x01, by decide⟩

/-- Reset with `a` in `A` and `v` in every register that can be a target. -/
def State.withOperands (a v : Byte) : State :=
  State.reset.setRegs { RegisterFile.new with a := a, b := v, c := v, d := v, e := v }

theorem State.withOperands_target (a v : Byte) (t : ArithmeticTarget) :
    (State.withOperands a v).reg (regOfTarget t) = v := by cases t <;> rfl

/-- Settles O20: of the eight records without subtract, one needs a zero sum with a half-carry and no carry. -/
theorem addFlagBytesAreTheSeven : Obligations.AddFlagBytesAreTheSeven := by
  refine ⟨fun i s => ?_, fun v s => ?_, flagsToByte_addFlags_mem, by decide, fun x hx => ?_⟩
  · obtain ⟨t, ht, -, hf, -⟩ := exec_of_operands (i := i) (s := s) rfl rfl
    exact ⟨t, ht, hf ▸ flagsToByte_addFlags_mem _ _⟩
  · refine ⟨_, runCommand_add v s, ?_⟩
    rw [State.reg_setPort, State.reg_f_setFlags]
    exact flagsToByte_addFlags_mem _ _
  · obtain ⟨a, v, rfl⟩ := exists_flagsToByte_addFlags hx
    refine ⟨fun i => ?_, v, State.withOperands a v, _, runCommand_add v _, State.reg_f_setFlags _ _⟩
    obtain ⟨t, ht, -, hf, -⟩ := exec_of_operands (i := i) (s := State.withOperands a v) rfl
      (State.withOperands_target a v _)
    exact ⟨_, t, ht, hf⟩

end Sys2Proof.Machine

namespace Sys2Proof.Machine

/-! ## A step on an opcode (41_cpu_add.md section 3, 30_encoding.md R63) -/

/-- A step on an opcode that decodes to an instruction is `exec` of it, and completes with it. -/
theorem step_executeCycle_instr {s : State} {op : Byte} {i : Instr} {cs : List Command}
    (hc : s.commands = .executeCycle op :: cs) (hd : decode op = .instr i) :
    step s = completes (exec i (((s.setCommands cs).setPort none).setRun .executing)) := by
  rw [step_cons hc, runCommand, runExecuteCycle, hd, executeDecoded]

/-- So is a step on the typed instruction. -/
theorem step_executeTyped {s : State} {i : Instr} {cs : List Command} (hc : s.commands = .executeTyped i :: cs) :
    step s = completes (exec i (((s.setCommands cs).setPort none).setRun .executing)) := by
  rw [step_cons hc, runCommand, runExecuteTyped, executeDecoded]

/-- Settles O24: both forms of `execute_cycle` are the instruction with `run` executing, completed with OK. -/
theorem stepRunsTheDecodedInstruction : Obligations.StepRunsTheDecodedInstruction := by
  intro s op i cs hd hc
  have hstep := step_executeCycle_instr hc hd
  refine ⟨_, exec_eq i _, ?_, ?_, rfl, rfl, rfl, rfl⟩
  · rw [hstep, exec_eq, completes_next]; rfl
  · rw [hstep, step_executeTyped (cs := cs) rfl]; rfl

/-- The table word's byte decodes to the instruction that the table word stands for. -/
theorem decode_tableByte {nbits w : Nat} {i : Instr} (h : decodeTableWord nbits w = some i) :
    decode (tableByte nbits w) = .instr i := by
  rw [decodeTableWord] at h
  split at h
  next hd => cases h; exact hd
  next => cases h

/-- Settles O25: the placed byte is the oldest command, and those behind it are the ones that waited. -/
theorem placedWordRunsNext : Obligations.PlacedWordRunsNext := by
  intro s nbits w i h
  refine ⟨_, exec_eq i _, ?_⟩
  rw [step_executeCycle_instr (cs := s.commands) rfl (decode_tableByte h), exec_eq, completes_next]
  rfl

/-- Settles O26: without a waiting command only the outputs change. -/
theorem stepWithoutCommandWaits : Obligations.StepWithoutCommandWaits := fun _ hc => step_nil hc

/-- Settles O54: a step first clears the response, whether a command waits or not. -/
theorem outputsAreNotHeldBetweenCommands : Obligations.OutputsAreNotHeldBetweenCommands := by
  intro s p
  show step (s.setPort p) = step s
  cases hc : s.commands with
  | nil => rw [step_nil hc, step_nil (s := s.setPort p) hc]; rfl
  | cons c cs => rw [step_cons hc, step_cons (s := s.setPort p) hc]; rfl

/-! ## Streams of opcodes (30_encoding.md R68, 93_implementation_defined.md U1) -/

theorem regOfTarget_ne_a (t : ArithmeticTarget) : regOfTarget t ≠ .a := by cases t <;> decide
theorem regOfTarget_ne_f (t : ArithmeticTarget) : regOfTarget t ≠ .f := by cases t <;> decide

/-- What one instruction of a stream leaves. -/
theorem step_executeCycle_sum {s : State} {op : Byte} {i : Instr} {cs : List Command}
    (hc : s.commands = .executeCycle op :: cs) (hd : decode op = .instr i) :
    ∃ t, step s = .next t ∧ t.commands = cs ∧ t.port = some (.ok .none) ∧
      (t.reg .a).toNat = ((s.reg .a).toNat + (s.reg (regOfTarget i.target)).toNat) % 256 ∧
      (∀ x, x ≠ .a → x ≠ .f → t.reg x = s.reg x) ∧ t.cpu.pc = s.cpu.pc ∧ t.cpu.sp = s.cpu.sp ∧ t.cart = s.cart := by
  rw [step_executeCycle_instr hc hd, exec_eq, completes_next]
  exact ⟨_, rfl, rfl, rfl, toNat_addResult _ _, fun _ ha hf => addedRegs_read_ne _ _ ha hf, rfl, rfl, rfl⟩

/-- Settles O49, by induction on the program: an instruction adds its target, and no instruction writes a target. -/
theorem instructionListSumsItsOperands : Obligations.InstructionListSumsItsOperands := by
  intro prog
  induction prog with
  | nil =>
    intro s hc
    have ha := (s.reg .a).isLt
    refine ⟨s, rfl, hc, ?_, fun _ _ _ => rfl, rfl, rfl, rfl⟩
    simp only [List.map_nil, List.sum_nil]
    omega
  | cons i prog ih =>
    intro s hc
    obtain ⟨t, hst, htc, -, hta, hframe, htpc, htsp, htcart⟩ := step_executeCycle_sum hc (decode_encode i)
    obtain ⟨u, htu, huc, hua, huframe, hupc, husp, hucart⟩ := ih t htc
    have htargets : ∀ j : Instr, t.reg (regOfTarget j.target) = s.reg (regOfTarget j.target) :=
      fun j => hframe _ (regOfTarget_ne_a _) (regOfTarget_ne_f _)
    refine ⟨u, (run_succ hst _).trans htu, huc, ?_, fun x ha hf => (huframe x ha hf).trans (hframe x ha hf),
      hupc.trans htpc, husp.trans htsp, hucart.trans htcart⟩
    simp only [htargets] at hua
    rw [hua, hta, List.map_cons, List.sum_cons]
    omega

/-- A byte that decodes to an instruction is one of the four. -/
theorem range_of_decode_eq_instr {op : Byte} {i : Instr} (h : decode op = .instr i) :
    0x80 ≤ op.toNat ∧ op.toNat ≤ 0x83 := by
  have hne : decode op ≠ .unknown op := by rw [h]; exact nofun
  rw [Ne, decode_eq_unknown_iff] at hne
  omega

/-- A run is clean where its first step goes on without UnknownInstruction and the rest of it is clean. -/
theorem cleanRun_succ {s t : State} (h : step s = .next t) (k : Nat) :
    cleanRun (k + 1) s = (!t.raisedUnknown && cleanRun k t) := by
  rw [cleanRun, h]

theorem raisedUnknown_of_ok {s : State} {r : Result} (h : s.port = some (.ok r)) : s.raisedUnknown = false := by
  rw [State.raisedUnknown, h]

/-- Settles O50, by induction on the stream: a step on an opcode is unclean exactly where it decodes to Unknown. -/
theorem streamIsCleanExactlyOnTheFourOpcodes : Obligations.StreamIsCleanExactlyOnTheFourOpcodes := by
  intro ops
  induction ops with
  | nil => intro s _; exact iff_of_true rfl (List.forall_mem_nil _)
  | cons op ops ih =>
    intro s hc
    rw [List.length_cons, List.forall_mem_cons]
    cases hd : decode op with
    | instr i =>
      obtain ⟨t, hst, htc, hport, -⟩ := step_executeCycle_sum hc hd
      rw [cleanRun_succ hst, raisedUnknown_of_ok hport, Bool.not_false, Bool.true_and, ih t htc,
        and_iff_right (range_of_decode_eq_instr hd)]
    | unknown x =>
      obtain rfl := eq_of_decode_eq_unknown hd
      have hrange := (decode_eq_unknown_iff x).mp hd
      rw [cleanRun_succ (step_executeCycle_unknown hc hd)]
      exact iff_of_false nofun fun h => by omega

end Sys2Proof.Machine

namespace Sys2Proof.Machine

/-! ## Exceptions are precise (60_exceptions.md sections 1 and 4) -/

/-- Of the commands of the CPU Core only `execute_cycle` of an unknown byte raises an exception. -/
theorem cpuEffect_raised {c : Command} {u : CpuCore} {e : Exception} (h : (cpuEffect c u).2 = some (.raised e)) :
    ∃ op, c = .executeCycle op ∧ e = .unknownInstruction op ∧ (cpuEffect c u).1 = { u with run := .executing } := by
  cases c with
  | executeCycle op =>
    cases hd : decode op with
    | instr i => simp [cpuEffect, hd] at h
    | unknown x =>
      obtain rfl := eq_of_decode_eq_unknown hd
      simp only [cpuEffect, hd] at h
      cases h
      exact ⟨x, rfl, rfl, by simp only [cpuEffect, hd]⟩
  | _ => cases h

/-- What a command that raised an exception left. -/
theorem runCommand_raised {c : Command} {s t : State} {e : Exception} (ht : runCommand c s = .next t)
    (hp : t.port = some (.raised e)) :
    t = s.setPort (some (.raised e)) ∨
    ∃ op, c = .executeCycle op ∧ e = .unknownInstruction op ∧
      t = (s.setRun .executing).setPort (some (.raised e)) := by
  obtain rfl | rfl | hcpu | hacc | ⟨bytes, rfl⟩ := command_cases c
  · cases ht; cases hp
  · cases ht; cases hp
  · rw [runCommand_cpu hcpu] at ht
    cases ht
    obtain ⟨op, hc, he, hu⟩ := cpuEffect_raised hp
    exact .inr ⟨op, hc, he, by rw [hu, show (cpuEffect c s.cpu).2 = _ from hp]; rfl⟩
  · obtain ⟨p, rfl⟩ := runCommand_accessor_next hacc ht
    exact .inl (congrArg s.setPort hp)
  · obtain ⟨rfl, -⟩ | ⟨rfl, -⟩ | ⟨rfl, -⟩ := runLoad_next ht
    · exact .inl (congrArg s.setPort hp)
    · exact .inl (congrArg s.setPort hp)
    · cases hp

/-- Settles O51: only the unknown opcode writes anything before it raises, and that is `run`. -/
theorem exceptionsChangeNothingButRun : Obligations.ExceptionsChangeNothingButRun := by
  intro s t c cs e hc ht hp
  rw [step_cons hc] at ht
  exact runCommand_raised ht hp

/-! ## The run state (10_state.md R19, 92_eei_decisions.md D10) -/

theorem toCart_of_isAccessor {c : Command} (h : c.isAccessor = true) : c.toCart = true := by
  cases c <;> cases h <;> rfl

/-- The CPU Core after a command that answers a next state. -/
theorem runCommand_next_cpu {c : Command} {s t : State} (ht : runCommand c s = .next t) :
    t.cpu = cpuAfter c s.cpu := by
  obtain rfl | rfl | hcpu | hacc | ⟨bytes, rfl⟩ := command_cases c
  · cases ht; rfl
  · cases ht; rfl
  · rw [runCommand_cpu hcpu] at ht
    cases ht
    exact (cpuAfter_toCpu hcpu s.cpu).symm
  · rw [runCommand_accessor_cpu hacc ht]
    exact (cpuAfter_toCart (toCart_of_isAccessor hacc) s.cpu).symm
  · rw [runLoad_cpu ht]
    exact (cpuAfter_toCart rfl s.cpu).symm

/-- `execute_cycle` sets `run`, whatever its byte decodes to. -/
theorem cpuAfter_executeCycle_run (op : Byte) (u : CpuCore) : (cpuAfter (.executeCycle op) u).run = .executing := by
  rw [cpuAfter_toCpu rfl]
  cases hd : decode op <;> simp [cpuEffect, hd]

/-- Every command but the two resets of the core leaves an executing core executing. -/
theorem cpuAfter_run_of_executing {c : Command} (hr : c ≠ .reset) (hc : c ≠ .resetCpu) {u : CpuCore}
    (h : u.run = .executing) : (cpuAfter c u).run = .executing := by
  cases c with
  | reset => exact absurd rfl hr
  | resetCpu => exact absurd rfl hc
  | executeCycle op => exact cpuAfter_executeCycle_run op u
  | executeTyped i => rfl
  | _ => exact h

/-- Settles O52: `run` after a step is a function of the command and of `run` before it. -/
theorem runStateLeavesExecutingOnlyByReset : Obligations.RunStateLeavesExecutingOnlyByReset := by
  intro s t c cs hc ht
  rw [step_cons hc] at ht
  have hcpu : t.cpu = cpuAfter c s.cpu := runCommand_next_cpu (s := (s.setCommands cs).setPort none) ht
  rw [hcpu]
  refine ⟨?_, fun hrun hidle => ?_⟩
  · rintro (⟨op, rfl⟩ | ⟨i, rfl⟩)
    · exact cpuAfter_executeCycle_run op s.cpu
    · rfl
  · by_contra hne
    obtain ⟨hr, hcpu⟩ := not_or.mp hne
    rw [cpuAfter_run_of_executing hr hcpu hrun] at hidle
    cases hidle

/-- A command of the CPU Core answers the same and writes the same whatever `run` is, but for `run` itself. -/
theorem cpuEffect_run (c : Command) (u : CpuCore) (r : RunState) :
    ∃ r', cpuEffect c { u with run := r } = ({ (cpuEffect c u).1 with run := r' }, (cpuEffect c u).2) := by
  cases c with
  | resetCpu => exact ⟨.idle, rfl⟩
  | executeCycle op => exact ⟨.executing, by cases hd : decode op <;> simp only [cpuEffect, hd]⟩
  | executeTyped i => exact ⟨.executing, rfl⟩
  | _ => exact ⟨r, rfl⟩

/-- No command reads `run`. -/
theorem runCommand_setRun {c : Command} {s t : State} (ht : runCommand c s = .next t) (r : RunState) :
    ∃ r', runCommand c (s.setRun r) = .next (t.setRun r') := by
  have hwf := wf_of_runCommand_next ht
  obtain rfl | rfl | hcpu | hacc | ⟨bytes, rfl⟩ := command_cases c
  · cases ht; exact ⟨.idle, rfl⟩
  · cases ht; exact ⟨r, rfl⟩
  · obtain ⟨r', hr'⟩ := cpuEffect_run c s.cpu r
    have hu : (s.setRun r).cpu = { s.cpu with run := r } := rfl
    rw [runCommand_cpu hcpu] at ht ⊢
    cases ht
    exact ⟨r', by rw [hu, hr']; rfl⟩
  · obtain ⟨a, ha⟩ := runCommand_accessor_readsOnly hacc s.cart
    rw [ha s rfl] at ht
    cases a with
    | ok p => cases ht; exact ⟨r, ha (s.setRun r) rfl⟩
    | error f => cases ht
  · have hload := runLoad_of_le (of_decide_eq_true hwf)
    cases (hload s).symm.trans ht
    exact ⟨r, hload (s.setRun r)⟩

/-- Settles O53: a command keeps the difference in `run`, or writes `run` itself. -/
theorem runStateChangesNoResult : Obligations.RunStateChangesNoResult := by
  intro s t r ht
  cases hc : s.commands with
  | nil =>
    rw [step_nil hc] at ht
    cases ht
    exact ⟨r, step_nil (s := s.setRun r) hc⟩
  | cons c cs =>
    rw [step_cons hc] at ht
    rw [step_cons (s := s.setRun r) hc]
    exact runCommand_setRun ht r

end Sys2Proof.Machine

namespace Sys2Proof.Machine

/-! ## The two components (00_scope.md R3, 20_memory.md section 4) -/

/-- Settles O55: each command reads and writes its own component alone, and answers from it alone. -/
theorem cpuAndCartridgeCommandsCommute : Obligations.CpuAndCartridgeCommandsCommute := by
  intro s c d hinv hcpu hcart hwf
  exact ⟨_, _, _, _, runCommand_cpu hcpu s, runCommand_toCart hcart hwf hinv, runCommand_toCart hcart hwf hinv,
    runCommand_cpu hcpu _, rfl, rfl, rfl, rfl, rfl, rfl⟩

/-- A left fold may leave out the elements that change nothing. -/
theorem foldl_filter_of_keeps {α β : Type} (f : β → α → β) (p : α → Bool) (h : ∀ x a, p a = false → f x a = x)
    (l : List α) (x : β) : (l.filter p).foldl f x = l.foldl f x := by
  have hf : (fun x a => if p a then f x a else x) = f := by
    funext x a
    split
    · rfl
    next hp => exact (h x a (Bool.eq_false_iff.mpr hp)).symm
  rw [List.foldl_filter, hf]

/-- A run over all waiting commands: each component is what they make of it in turn. -/
theorem run_all {s : State} (hinv : s.Inv) (hwf : s.CommandsWf) :
    ∃ t, Sys2Proof.core.run s.commands.length s = .next t ∧
      t.cpu = s.commands.foldl (fun u c => cpuAfter c u) s.cpu ∧
      t.cart = s.commands.foldl (fun r c => cartAfter c r) s.cart := by
  obtain ⟨t, hrun, -, -, -, hcpu, hcart⟩ := run_progress s.commands.length hinv hwf
  rw [List.take_length] at hcpu hcart
  exact ⟨t, hrun, hcpu, hcart⟩

/-- A run over those of the waiting commands that are kept, the others not having been issued. -/
theorem run_filter {s : State} (hinv : s.Inv) (hwf : s.CommandsWf) (p : Command → Bool) :
    ∃ t, Sys2Proof.core.run (s.commands.filter p).length { s with commands := s.commands.filter p } = .next t ∧
      t.cpu = (s.commands.filter p).foldl (fun u c => cpuAfter c u) s.cpu ∧
      t.cart = (s.commands.filter p).foldl (fun r c => cartAfter c r) s.cart :=
  run_all (s := { s with commands := s.commands.filter p }) hinv fun c hc => hwf c (List.mem_of_mem_filter hc)

/-- Settles O56: a component's state after a run is a fold over the commands, and those of the other component change
nothing in it. -/
theorem componentsDoNotInterfere : Obligations.ComponentsDoNotInterfere := by
  intro s hinv hwf
  obtain ⟨t, htrun, htcpu, htcart⟩ := run_all hinv hwf
  obtain ⟨u, hurun, hucpu, -⟩ := run_filter hinv hwf fun c => !c.toCart
  obtain ⟨v, hvrun, -, hvcart⟩ := run_filter hinv hwf fun c => !c.toCpu
  refine ⟨t, u, v, htrun, hurun, hvrun, ?_, ?_⟩
  · rw [htcpu, hucpu, foldl_filter_of_keeps]
    exact fun u c hc => cpuAfter_toCart (by simpa using hc) u
  · rw [htcart, hvcart, foldl_filter_of_keeps]
    exact fun r c hc => cartAfter_toCpu (by simpa using hc) r

end Sys2Proof.Machine

namespace Sys2Proof.Machine

/-! ## The reset inputs (10_state.md section 5, 70_reset_and_hazards.md R180) -/

/-- Settles O2: the state after reset is the two components as `new()` leaves them. -/
theorem resetStateHoldsTheTable : Obligations.ResetStateHoldsTheTable := by
  obtain ⟨hregs, hflags, hpairs, -, -, htitle, -⟩ := newZeroesRegistersAndReader
  exact ⟨hregs, hflags, hpairs, rfl, rfl, rfl, rfl, htitle, rfl, rfl, rfl, rfl, rfl, rfl, rfl⟩

/-- Settles O3: each reset input puts `new()` in place of what it resets, and clears the response. -/
theorem resetCommandsRestoreNew : Obligations.ResetCommandsRestoreNew :=
  fun _ _ => ⟨step_reset, step_cons, step_cons⟩

/-! ## The round trips of the flags and of the views (40_register_file.md sections 3, 4 and 6) -/

/-- The record of a byte gives its upper nibble back. -/
theorem flagsToByte_byteToFlags (x : Byte) : flagsToByte (byteToFlags x) = maskF x := by
  revert x; decide

/-- Settles O7: both conversions are the identity on what the other answers. -/
theorem flagConversionsRoundTrip : Obligations.FlagConversionsRoundTrip :=
  ⟨byteToFlags_flagsToByte, flagsToByte_byteToFlags, fun x => byteToFlags_flagsToByte (byteToFlags x)⟩

/-- `F` is the register of code 1 alone. -/
theorem regOfSel_eq_f_iff (rsel : BitVec 3) : regOfSel rsel = .f ↔ rsel = 1 := by
  revert rsel; decide

/-- What a register reads as in the state after a write of it. -/
theorem State.reg_setReg_self (s : State) (x : Reg) (v : Byte) :
    (s.setReg x v).reg x = if x = .f then maskF v else v :=
  RegisterFile.read_write_self _ x v

theorem State.reg_setReg_ne (s : State) {x y : Reg} (v : Byte) (h : y ≠ x) : (s.setReg x v).reg y = s.reg y :=
  RegisterFile.read_write_ne _ v h

theorem runCommand_writeReg (rsel : BitVec 3) (v : Byte) (s : State) :
    runCommand (.writeReg rsel v) s = .next ((s.setReg (regOfSel rsel) v).setPort (some (.ok .none))) := rfl

theorem runCommand_readReg (rsel : BitVec 3) (s : State) :
    runCommand (.readReg rsel) s = .next (s.setPort (some (.ok (.byte (s.reg (regOfSel rsel)))))) := rfl

/-- Settles O8: a write and a read of the selected register, which is `F` at code 1 alone. -/
theorem registerWriteThenRead : Obligations.RegisterWriteThenRead := by
  refine ⟨by decide, fun rsel v s => ?_⟩
  refine ⟨_, runCommand_writeReg rsel v s, rfl, rfl, rfl, rfl, rfl, rfl, fun y hy => State.reg_setReg_ne s v hy, ?_⟩
  rw [runCommand_readReg, State.reg_setPort, State.reg_setReg_self]
  simp only [regOfSel_eq_f_iff]
  rfl

/-- The view AF is masked twice, as it is read and as it is composed, which is the same as once. -/
theorem RegisterFile.getPair_af (rf : RegisterFile) : rf.getPair .af = rf.a ++ maskF rf.f :=
  congrArg (rf.a ++ ·) (maskF_maskF rf.f)

theorem RegisterFile.getPair_bc (rf : RegisterFile) : rf.getPair .bc = rf.b ++ rf.c := rfl
theorem RegisterFile.getPair_de (rf : RegisterFile) : rf.getPair .de = rf.d ++ rf.e := rfl
theorem RegisterFile.getPair_hl (rf : RegisterFile) : rf.getPair .hl = rf.h ++ rf.l := rfl

theorem runCommand_getPair (psel : BitVec 2) (s : State) :
    runCommand (.getPair psel) s =
      .next (s.setPort (some (.ok (.word (s.cpu.regs.getPair (pairOfSel psel)))))) := rfl

/-- Settles O10: each view is its two registers one behind the other. -/
theorem getPairComposesTheView : Obligations.GetPairComposesTheView := by
  intro s
  refine ⟨_, _, _, _, runCommand_getPair 0 s, runCommand_getPair 1 s, runCommand_getPair 2 s, runCommand_getPair 3 s,
    ?_, toNat_join _ _, toNat_join _ _, toNat_join _ _⟩
  exact (congrArg BitVec.toNat (RegisterFile.getPair_af _)).trans (toNat_join _ _)

/-- The mask of AF is that of `F` on the low byte. -/
theorem and_fff0_eq (v : Word16) : v &&& 0xFFF0 = highByte v ++ maskF (lowByte v) := by
  have hmask : (0xFFF0 : Word16) = (BitVec.allOnes 8 ++ (0xF0 : Byte) : Word16) := by decide
  conv_lhs => rw [← join_highByte_lowByte v, hmask, BitVec.and_append, BitVec.and_allOnes]
  rfl

theorem RegisterFile.getPair_setPair_af (rf : RegisterFile) (v : Word16) :
    (rf.setPair .af v).getPair .af = v &&& 0xFFF0 := by
  rw [setPair_af, getPair_af, maskF_maskF, and_fff0_eq]

theorem RegisterFile.getPair_setPair (rf : RegisterFile) {p : Pair} (v : Word16) (h : p ≠ .af) :
    (rf.setPair p v).getPair p = v := by
  cases p with
  | af => exact absurd rfl h
  | bc => exact join_highByte_lowByte v
  | de => exact join_highByte_lowByte v
  | hl => exact join_highByte_lowByte v

/-- A view written back changes nothing where the mask on `F` does not. -/
theorem RegisterFile.setPair_getPair (rf : RegisterFile) (p : Pair) (h : rf.f &&& 0x0F = 0) :
    rf.setPair p (rf.getPair p) = rf := by
  have hf : maskF rf.f = rf.f := (maskF_eq_self_iff rf.f).mpr h
  cases p with
  | af => simp [setPair_af, getPair_af, hf]
  | bc => simp [setPair_bc, getPair_bc]
  | de => simp [setPair_de, getPair_de]
  | hl => simp [setPair_hl, getPair_hl]

/-- Settles O11: composing a view and taking it apart undo each other, but for the mask on `F`. -/
theorem viewsRoundTrip : Obligations.ViewsRoundTrip :=
  ⟨RegisterFile.getPair_setPair_af, fun rf _ v h => rf.getPair_setPair v h, RegisterFile.setPair_getPair⟩

end Sys2Proof.Machine

namespace Sys2Proof.Machine

/-! ## The buffer and the load (20_memory.md R42, 42_cartridge_header.md R121, R122) -/

/-- Settles O43: a read takes the byte of every offset, and has one exactly inside the buffer. -/
theorem memReadIsSingleByteReads : Obligations.MemReadIsSingleByteReads := by
  refine ⟨fun m addr n v => ?_, fun m i => ?_⟩
  · by_cases hle : addr + n ≤ m.len
    · have hbyte : ∀ k : Fin n, m.byte? (addr + k.val) = some (cellAt m.cells (addr + k.val)) :=
        fun k => m.byte?_of_lt (by omega)
      rw [m.read_of_le hle, and_iff_right hle, Option.some.injEq, Vector.ext_iff]
      simp only [hbyte, Vector.getElem_ofFn, Option.some.injEq, Fin.forall_iff]
      rfl
    · rw [m.read_of_lt (Nat.lt_of_not_le hle)]
      exact iff_of_false nofun fun h => hle h.1
  · rw [Memory.byte?, ← Nat.not_lt]
    split
    next h => exact iff_of_false nofun (not_not_intro h)
    next h => exact iff_of_true rfl h

/-- The bytes of a list in a window, given by what stands at each offset. -/
theorem take_drop_eq_map_range {bytes : List Byte} {f : Nat → Byte} {addr n : Nat}
    (h : ∀ k < n, bytes[addr + k]? = some (f (addr + k))) :
    (bytes.drop addr).take n = (List.range n).map fun k => f (addr + k) := by
  apply List.ext_getElem?
  intro k
  rw [List.getElem?_take, List.getElem?_drop, List.getElem?_map]
  split
  next hk => rw [h k hk, List.getElem?_range hk]; rfl
  next hk => rw [List.getElem?_eq_none (by simpa using hk)]; rfl

theorem some_getD {bytes : List Byte} {i : Nat} (h : i < bytes.length) (d : Byte) :
    some (bytes.getD i d) = bytes[i]? := by
  rw [List.getD_eq_getElem _ _ h, List.getElem?_eq_getElem h]

/-- The cached title of a loaded image is its 15 title bytes. -/
theorem loadedReader_title {bytes : List Byte} (h : Config.minLen ≤ bytes.length) :
    (loadedReader bytes).cTitle.toList = (bytes.drop 0x134).take 15 := by
  have hlen : 0x150 ≤ bytes.length := h
  rw [take_drop_eq_map_range (f := fun i => bytes.getD i unlistedByte) fun k hk => (some_getD (by omega) _).symm]
  apply List.ext_getElem <;> simp [loadedReader]

/-- Settles O27: the reader after the load is `loadedReader`, whose buffer and cache are the image's bytes. -/
theorem loadStoresTheImage : Obligations.LoadStoresTheImage := by
  intro s bytes cs hc hl hmin hmax
  exact ⟨_, step_load_full hc hl hmin hmax, rfl, rfl, rfl, rfl, rfl, Memory.ofBytes_wf bytes,
    Memory.byte?_ofBytes bytes, loadedReader_title hmin, some_getD (by omega) _, some_getD (by omega) _,
    some_getD (by omega) _, some_getD (by omega) _⟩

/-- Settles O29: within the operand's domain, the first test of a load is whether one has succeeded. -/
theorem secondLoadIsAlreadyLoaded : Obligations.SecondLoadIsAlreadyLoaded := by
  intro s bytes cs hc hl hmax
  have hl' : ((s.setCommands cs).setPort none).cart.loaded = true := hl
  rw [step_cons hc, runCommand, runLoad_eq, if_neg hmax.not_gt, if_pos hl', raise_eq]
  rfl

/-- Settles O30: the test every accessor begins with. -/
theorem accessorBeforeLoadIsNotLoaded : Obligations.AccessorBeforeLoadIsNotLoaded := by
  intro s c cs hc hacc hl
  rw [step_cons hc]
  exact runCommand_accessor_unloaded hacc hl

/-! ## The header fields (20_memory.md R47, 42_cartridge_header.md R123, R126) -/

/-- A window of the buffer below `MIN_LEN` is that of the held image. -/
theorem State.HoldsImage.window {s : State} {image : List Byte} (h : s.HoldsImage image) {addr n : Nat}
    (hle : addr + n ≤ Config.minLen) :
    ((List.range n).map fun k => cellAt s.cart.content.cells (addr + k)) = (image.drop addr).take n :=
  (take_drop_eq_map_range fun k hk => h.getElem?_eq (by omega)).symm

/-- The cached codes are the image's bytes. -/
theorem State.HoldsImage.codes {s : State} {image : List Byte} (h : s.HoldsImage image) :
    image[0x147]? = some s.cart.cType ∧ image[0x148]? = some s.cart.cRom ∧ image[0x149]? = some s.cart.cRam ∧
      image[0x14B]? = some s.cart.cLic := by
  obtain ⟨⟨-, -, hloaded⟩, hl, hbytes⟩ := h
  obtain ⟨-, -, -, hcodes⟩ := hloaded hl
  simpa only [hbytes] using hcodes

theorem State.HoldsImage.runCommand_readSection {s : State} {image : List Byte} (h : s.HoldsImage image)
    (fd : HeaderField) :
    runCommand (.readSection (tagOfField fd)) s =
      .next (s.setPort (some (.ok (.bytes ((image.drop (fieldFirst fd)).take (fieldLength fd)))))) := by
  rw [h.runCommand_accessor rfl, ← h.window (fieldLast_lt fd)]
  simp only [accessorResponse, fieldOfTag_tagOfField]

theorem State.HoldsImage.runCommand_readSection_of_none {s : State} {image : List Byte} (h : s.HoldsImage image)
    {tag : BitVec 4} (htag : fieldOfTag tag = none) :
    runCommand (.readSection tag) s = .next (s.setPort (some (.raised (.invalidSectionTag tag)))) := by
  rw [h.runCommand_accessor rfl]
  simp only [accessorResponse, htag]

/-- The header fields in the order of their tags. -/
def headerFields : List HeaderField :=
  [.entryPoint, .logo, .title, .sgbFlag, .cartridgeType, .romSize, .ramSize, .destinationCode, .licenseCode, .checksum]

/-- A field's row of the header map: its tag, its first and its last offset. -/
def headerRow (fd : HeaderField) : Nat × Nat × Nat := ((tagOfField fd).toNat, fieldFirst fd, fieldLast fd)

theorem fieldOfTag_eq_none {tag : BitVec 4} (h : 9 < tag.toNat) : fieldOfTag tag = none := by
  revert tag; decide

/-- Settles O33: the ten rows are those of the ten fields, and no tag above 9 names a field. -/
theorem readSectionAnswersTheHeaderMap : Obligations.ReadSectionAnswersTheHeaderMap := by
  intro s image himg
  refine ⟨fun row hrow => ?_, fun tag htag => himg.runCommand_readSection_of_none (fieldOfTag_eq_none htag)⟩
  obtain ⟨fd, -, rfl⟩ : ∃ fd ∈ headerFields, headerRow fd = row := List.mem_map.mp hrow
  rw [headerRow, BitVec.ofNat_toNat, BitVec.setWidth_eq]
  exact himg.runCommand_readSection fd

/-- Settles O34: the cached codes are the image's bytes, and `read_section` reads the buffer. -/
theorem rawCodesAreTheImagesBytes : Obligations.RawCodesAreTheImagesBytes := by
  intro s image himg
  obtain ⟨htype, hrom, hram, hlic⟩ := himg.codes
  have hdest := himg.getElem?_eq (i := 0x14A) (by decide)
  exact ⟨_, _, _, _, _, hrom, hram, htype, hlic, hdest, himg.runCommand_accessor rfl, himg.runCommand_accessor rfl,
    himg.runCommand_accessor rfl, himg.runCommand_accessor rfl, himg.runCommand_accessor rfl⟩

/-! ## The decoded accessors (42_cartridge_header.md section 3) -/

/-- Up to code 26 the size fits into 32 bits. -/
theorem toNat_romKilobytes {c : Nat} (h : c ≤ 26) : (BitVec.ofNat 32 (32 * 2 ^ c)).toNat = 32 * 2 ^ c := by
  have hpow : 2 ^ c ≤ 2 ^ 26 := Nat.pow_le_pow_right (by decide) h
  rw [BitVec.toNat_ofNat, Nat.mod_eq_of_lt]
  omega

/-- Settles O36: the test on the code comes after the one on `loaded`, and before it the formula is exact. -/
theorem romSizeIsExactOrUnsupported : Obligations.RomSizeIsExactOrUnsupported := by
  intro s hl
  refine ⟨fun hle => ⟨_, toNat_romKilobytes hle, ?_⟩, fun hlt => ?_⟩
  · rw [runCommand, runRomSize, afterLoad_loaded hl, if_neg (by omega)]; rfl
  · rw [runCommand, runRomSize, afterLoad_loaded hl, if_pos (by omega)]; rfl

/-- Settles O38: the byte each accessor looks up, cached or in the buffer, is the image's. -/
theorem tableAccessorsFollowTheirTables : Obligations.TableAccessorsFollowTheirTables := by
  refine ⟨⟨_, if_pos rfl⟩, ⟨_, if_pos rfl⟩, ⟨_, if_pos rfl⟩, fun s image type lic dest himg htype hlic hdest => ?_⟩
  obtain ⟨htype', -, -, hlic'⟩ := himg.codes
  have hdest' := himg.getElem?_eq (i := 0x14A) (by decide)
  cases htype.symm.trans htype'
  cases hlic.symm.trans hlic'
  cases hdest.symm.trans hdest'
  exact ⟨himg.runCommand_accessor rfl, himg.runCommand_accessor rfl, himg.runCommand_accessor rfl⟩

/-! ## The checksum (42_cartridge_header.md section 4) -/

/-- The bytes at 0x134 to 0x14C. -/
def checksumWindow (image : List Byte) : List Byte := (image.drop 0x134).take 25

/-- The sum of the bytes of a window as a number. -/
def byteSum (window : List Byte) : Nat := (window.map BitVec.toNat).sum

/-- Every step subtracts its byte and 1. -/
theorem foldl_checksumStep (window : List Byte) (x : Word16) :
    window.foldl checksumStep x = x - BitVec.ofNat 16 (byteSum window + window.length) := by
  induction window generalizing x with
  | nil => simp [byteSum]
  | cons b bs ih =>
    have hb : b.setWidth 16 = BitVec.ofNat 16 b.toNat := by simp
    have hsum : byteSum (b :: bs) = b.toNat + byteSum bs := List.sum_cons
    rw [List.foldl_cons, ih, checksumStep, hb, hsum, List.length_cons]
    have hone : BitVec.ofNat 16 1 = 1 := rfl
    simp only [BitVec.ofNat_add, hone]
    ring

/-- The accumulator in closed form. -/
theorem toNat_checksumAccumulator (window : List Byte) :
    ((checksumAccumulator window).toNat : Int) = (-((byteSum window : Int) + window.length)) % 65536 := by
  rw [checksumAccumulator, foldl_checksumStep, zero_sub, BitVec.toNat_neg, BitVec.toNat_ofNat]
  omega

/-- Its low byte in closed form. -/
theorem toNat_checksumOf (window : List Byte) :
    ((checksumOf window).toNat : Int) = (-((byteSum window : Int) + window.length)) % 256 := by
  have hacc := toNat_checksumAccumulator window
  rw [checksumOf, BitVec.toNat_setWidth]
  omega

theorem State.HoldsImage.checksumWindow_eq {s : State} {image : List Byte} (h : s.HoldsImage image) :
    ((List.range 25).map fun k => cellAt s.cart.content.cells (0x134 + k)) = checksumWindow image :=
  h.window (by decide)

theorem State.HoldsImage.checksumWindow_length {s : State} {image : List Byte} (h : s.HoldsImage image) :
    (checksumWindow image).length = 25 := by
  rw [← h.checksumWindow_eq, List.length_map, List.length_range]

theorem State.HoldsImage.runCommand_calculateChecksum {s : State} {image : List Byte} (h : s.HoldsImage image) :
    runCommand .calculateChecksum s = .next (s.setPort (some (.ok (.byte (checksumOf (checksumWindow image)))))) := by
  rw [← h.checksumWindow_eq]
  exact h.runCommand_accessor rfl

theorem State.HoldsImage.runCommand_verifyChecksum {s : State} {image : List Byte} {stored : Byte}
    (h : s.HoldsImage image) (hs : image[0x14D]? = some stored) :
    runCommand .verifyChecksum s =
      .next (s.setPort (some (.ok (.verification stored (checksumOf (checksumWindow image))
        (decide (stored = checksumOf (checksumWindow image))))))) := by
  cases hs.symm.trans (h.getElem?_eq (by decide))
  rw [← h.checksumWindow_eq]
  exact h.runCommand_accessor rfl

/-- Settles O40: the fold subtracts the 25 bytes and 25 times 1, and 231 is -25 modulo 256. -/
theorem calculatedChecksumClosedForm : Obligations.CalculatedChecksumClosedForm := by
  intro s image himg
  have hacc := toNat_checksumAccumulator (checksumWindow image)
  have hbyte := toNat_checksumOf (checksumWindow image)
  rw [himg.checksumWindow_length] at hacc hbyte
  refine ⟨_, _, rfl, hacc, hbyte.trans ?_, himg.runCommand_calculateChecksum⟩
  show _ = (231 - (byteSum (checksumWindow image) : Int)) % 256
  omega

/-- Settles O41: the byte computed is the one `calculate_checksum` answers on the same window. -/
theorem verifyComparesStoredAndComputed : Obligations.VerifyComparesStoredAndComputed := by
  intro s image himg
  have hstored := himg.getElem?_eq (i := 0x14D) (by decide)
  exact ⟨_, _, hstored, himg.runCommand_calculateChecksum, himg.runCommand_verifyChecksum hstored⟩

/-- One changed byte changes the sum by the difference. -/
theorem byteSum_set {window : List Byte} {j : Nat} {old : Byte} (h : window[j]? = some old) (new : Byte) :
    byteSum (window.set j new) + old.toNat = byteSum window + new.toNat := by
  induction window generalizing j with
  | nil => cases h
  | cons b bs ih =>
    cases j with
    | zero =>
      cases h
      simp only [byteSum, List.set_cons_zero, List.map_cons, List.sum_cons]
      omega
    | succ j =>
      have hbs := ih (j := j) h
      simp only [byteSum, List.set_cons_succ, List.map_cons, List.sum_cons] at hbs ⊢
      omega

/-- And the checksum by the difference the other way. -/
theorem checksumOf_set {window : List Byte} {j : Nat} {old : Byte} (h : window[j]? = some old) (new : Byte) :
    checksumOf (window.set j new) = checksumOf window + (old - new) := by
  have hsum := byteSum_set h new
  have hset := toNat_checksumOf (window.set j new)
  have hwin := toNat_checksumOf window
  rw [List.length_set] at hset
  apply BitVec.eq_of_toNat_eq
  rw [BitVec.toNat_add, BitVec.toNat_sub]
  have hold := old.isLt
  have hnew := new.isLt
  omega

/-- A byte of the window stands in it 0x134 places lower. -/
theorem checksumWindow_set {image : List Byte} {i : Nat} (h : 0x134 ≤ i) (new : Byte) :
    checksumWindow (image.set i new) = (checksumWindow image).set (i - 0x134) new := by
  rw [checksumWindow, List.drop_set, if_neg (by omega), List.take_set]
  rfl

theorem checksumWindow_getElem? {image : List Byte} {i : Nat} (h : 0x134 ≤ i) (h' : i ≤ 0x14C) :
    (checksumWindow image)[i - 0x134]? = image[i]? := by
  rw [checksumWindow, List.getElem?_take, if_pos (by omega), List.getElem?_drop, Nat.add_sub_of_le h]

/-- Settles O42: the computed byte moves by `old - new`, which is not 0, and the stored byte is outside the window. -/
theorem oneChangedWindowByteIsDetected : Obligations.OneChangedWindowByteIsDetected := by
  intro s u image i old new stored computed ok hs hu hlo hhi hold hne hrun
  have hstored := hs.getElem?_eq (i := 0x14D) (by decide)
  have hstored' : (image.set i new)[0x14D]? = some (cellAt s.cart.content.cells 0x14D) := by
    rw [List.getElem?_set_ne (by omega), hstored]
  have hcomputed : checksumOf (checksumWindow (image.set i new)) = checksumOf (checksumWindow image) + (old - new) := by
    rw [checksumWindow_set hlo, checksumOf_set ((checksumWindow_getElem? hlo hhi).trans hold)]
  have hmoved : checksumOf (checksumWindow (image.set i new)) ≠ checksumOf (checksumWindow image) := by
    rw [hcomputed]
    bv_omega
  cases (hs.runCommand_verifyChecksum hstored).symm.trans hrun
  refine ⟨_, _, hu.runCommand_verifyChecksum hstored', hcomputed, hmoved, fun hok => ?_⟩
  rw [of_decide_eq_true hok]
  exact decide_eq_false hmoved.symm

end Sys2Proof.Machine

namespace Sys2Proof.Machine

/-! ## The boundary (60_exceptions.md R152, R161; 30_encoding.md R68) -/

/-- Settles O57: the table read off the two functions, and the outputs read off the response. -/
theorem statusCodesFollowTheTable : Obligations.StatusCodesFollowTheTable := by
  refine ⟨fun _ => ⟨rfl, rfl⟩, fun _ => ⟨rfl, rfl⟩, fun _ => ⟨rfl, rfl⟩, ⟨rfl, rfl⟩, ⟨rfl, rfl⟩, fun _ => ⟨rfl, rfl⟩,
    fun _ => ⟨⟨rfl, rfl⟩, ⟨rfl, rfl⟩, ⟨rfl, rfl⟩, ⟨rfl, rfl⟩, rfl, rfl⟩, fun s => ⟨rfl, rfl, rfl, ?_⟩⟩
  refine ⟨fun r hp => ?_, fun e hp => ?_, fun hp => ?_⟩
  · simp [State.outputs, hp, Response.status, Response.info, Response.result]
  · simp [State.outputs, hp, Response.status, Response.info, Response.result]
  · simp [State.outputs, hp]

/-- Settles O58: only a file that is there becomes a command. -/
theorem hostConditionsNeverReachTheBlock : Obligations.HostConditionsNeverReachTheBlock :=
  fun _ => ⟨rfl, rfl, fun _ => rfl⟩

/-- Settles O59, by induction on the lines: each is read on its own. -/
theorem writtenProgramIsReadBack : Obligations.WrittenProgramIsReadBack := by
  intro lines
  induction lines with
  | nil => rfl
  | cons line lines ih =>
    rw [List.map_cons, parseProgram, parseLine_text, ih]
    cases hi : line.instr <;> simp [hi]

end Sys2Proof.Machine
